-- ==== Sys2Proof/Word.lean ====
section
/-! DEFINITION. The widths of MURX CORE: register and cell words, code bytes, register numbers and
program-counter values (spec/00_scope.md R4, spec/10_state.md R10 and R13). -/

namespace Sys2Proof

/-- A register, a memory cell, an immediate, a data address or a transfer target: 16 bits (R4, `XLEN`). -/
abbrev Word := BitVec 16

/-- One byte of the code image (R31). -/
abbrev Byte := BitVec 8

/-- The number of a general register, 0 to 15 (R10); all sixteen values are legal (R59). -/
abbrev Reg := Fin 16

/-- A program-counter value: 17 bits, so that 65536 can be held (R13). -/
abbrev PcVal := BitVec 17

end Sys2Proof
end

