-- ==== Sys2Proof/Config.lean ====
section
/-! DEFINITION. The fixed numbers of MURX CORE (spec/00_scope.md R4) and the initial values that R27
gives to the state its source is silent on. The spec leaves no result of an instruction open (R195), so
there is no free value here. -/

namespace Sys2Proof.Config

/-- `MAX_FRAMES`: the largest number of call frames (R4, R21). -/
def maxFrames : Nat := 1000

/-- `MEM_CELLS`: the number of data-memory cells (R4, R30). -/
def memCells : Nat := 65536

/-- The largest `CODE_LEN` the spec's domain holds (R4, R31, R197). -/
def maxImage : Nat := 65536

/-- UNVERIFIED, unsafe (assumption 8): what every general register holds after reset (R27). -/
def initReg : Word := 0x0000#16

/-- UNVERIFIED, unsafe (assumption 8): what every cell holds after reset, hence what a cell that the
memory list does not name reads as (R27, R89). -/
def initCell : Word := 0x0000#16

/-- UNVERIFIED, unsafe (assumption 8): the carry flag after reset (R27). -/
def initCarry : Bool := false

end Sys2Proof.Config
end

