-- ==== Sys2Proof/Machine/State.lean ====
section
/-! DEFINITION. The state of MURX CORE as plain data (spec/10_state.md, spec/20_memory.md), its value
after reset (R27), the faults a step raises (R170) and the refusals of the model. -/

namespace Sys2Proof.Machine

/-- The comparison state: the outcome of the most recent compare (R17). -/
inductive CmpState where
  /-- no compare has executed since reset (R18) -/
  | none
  /-- the first operand was less than the second -/
  | lessThan
  /-- the operands were equal -/
  | equal
  /-- the first operand was greater than the second -/
  | greaterThan
  deriving DecidableEq, Repr

/-- UNVERIFIED, unsafe (assumption 15): the status of the core (R24). -/
inductive Status where
  /-- the next step request executes the instruction at `pc` -/
  | running
  /-- a `halt` completed; step requests do nothing -/
  | halted
  /-- a step raised a fault; step requests do nothing -/
  | faulted
  deriving DecidableEq, Repr

/-- A call frame: the register file as a `call` found it and the address after that `call` (R22). It holds
no flag, no status and no cell. -/
structure Frame where
  /-- the sixteen saved registers -/
  regs : Vector Word 16
  /-- the return address, 17 bits -/
  ret : PcVal
  deriving DecidableEq, Repr

/-- Data memory: the cells that differ from `Config.initCell`, as (address, value) pairs with rising
addresses. The unit is the 16-bit cell, the smallest the spec addresses (R30, R35; assumption 17). -/
abbrev Memory := List (Nat × Word)

/-- Everything the spec gives the machine (R10 to R25, R30, R31). -/
structure State where
  /-- `x[0]` to `x[15]` (R10) -/
  regs : Vector Word 16
  /-- the byte offset of the next instruction in the code image (R13, R14) -/
  pc : PcVal
  /-- the comparison state (R17) -/
  cmp : CmpState
  /-- the carry flag: signed overflow of the latest arithmetic instruction (R19) -/
  carry : Bool
  /-- the call-frame stack, most recent frame first; `depth` is its length (R21; assumption 18) -/
  frames : List Frame
  /-- data memory (R30) -/
  mem : Memory
  /-- the code image; `CODE_LEN` is its length (R31). No instruction reads or writes it as data (R32). -/
  code : List Byte
  /-- the status register (R24) -/
  status : Status
  /-- the fault code latch, 0 when no fault was raised (R25) -/
  errCode : BitVec 3
  /-- the fault information latch (R25) -/
  errInfo : Word
  deriving DecidableEq, Repr

/-- The faults a step can raise (R170), with the payload the spec gives each. Every one is TAKEN as R179
describes, as a next state with the status and the latches written; the outcome `.fault` is answered by
no step (assumption 16). -/
inductive Fault where
  /-- Raised by the three `div` opcodes when the second operand is zero (R171). Safe: the spec's own. -/
  | divisionByZero
  /-- Raised by a step whose opcode byte is 0x00 or above 0x31 (R172). Safe: the spec's own. -/
  | unknownOpcode (byte : Byte) (pc : PcVal)
  /-- Raised by `call` when the call-frame stack is full (R173). Safe: the spec's own. -/
  | stackOverflow
  /-- Raised by `ret` when there is no frame (R174). Safe: the spec's own. -/
  | stackUnderflow
  /-- Raised by a step that needs a byte past the end of the code image (R175). Unsafe where the source
  means otherwise: its name and extent are the spec's decision D10 (assumption 12). -/
  | codeOutOfBounds
  /-- Raised by `shr` and `shl` when the amount is not 0 to 15 (R176). Unsafe where the source means
  masking: the range check is the spec's decision D4 (assumption 6). -/
  | shiftAmountOutOfRange (amount : Word) (pc : PcVal)
  /-- Raised by `puts` and `getc` (R177). Unsafe where the reserved opcodes have some other effect: the
  fault is the spec's decision D9 (assumption 11). -/
  | unspecifiedInstruction (byte : Byte) (pc : PcVal)
  deriving DecidableEq, Repr

/-- Why the model gives a state no step at all. -/
inductive Refusal where
  /-- The instruction has no meaning yet. Answered by an arm of `exec` alone; no arm does. Safe. -/
  | notModelled (mnemonic : String)
  /-- Answered by a step of a running machine whose code image has more than 65536 bytes, which the spec
  puts outside its domain as a precondition (R197, spec/93_implementation_defined.md U12). Safe. -/
  | codeImageTooLong
  deriving DecidableEq, Repr

/-- The machine right after reset (R27). The code image is supplied from outside (R197) and is empty here,
which R31 calls legal (assumption 1). -/
def State.reset : State where
  regs := Vector.replicate 16 Config.initReg
  pc := 0#17
  cmp := .none
  carry := Config.initCarry
  frames := []
  mem := []
  code := []
  status := .running
  errCode := 0#3
  errInfo := 0x0000#16

end Sys2Proof.Machine
end

