-- ==== Sys2Proof/Machine/Flags.lean ====
section
/-! DEFINITION. Signed readings, the carry flag and the comparison state (spec/00_scope.md R5,
spec/42_arithmetic.md R90 to R93, spec/44_compare_branch.md R130 and R134). -/

namespace Sys2Proof.Machine

/-- `s16(v)`: a pattern read as a two's-complement integer (R5). -/
def s16 (v : Word) : Int := v.toInt

/-- `wrap16(n)`: the pattern of an integer modulo 65536 (R5). -/
def wrap16 (n : Int) : Word := BitVec.ofInt 16 n

/-- The carry flag of an exact result: signed overflow, not an unsigned carry-out (R90; assumption 24). -/
def overflows (e : Int) : Bool := decide (e < -32768) || decide (e > 32767)

/-- UNVERIFIED, unsafe (assumption 7): the exact quotient, rounded toward zero (R93). -/
def exactQuotient (a b : Int) : Int := Int.tdiv a b

/-- The signed order of two operands, the first relative to the second (R130). -/
def compareSigned (a b : Word) : CmpState :=
  if s16 a < s16 b then .lessThan
  else if s16 a = s16 b then .equal
  else .greaterThan

/-! The comparison states on which each branch is taken (R134). `none` is in no set. -/

/-- `be`. -/
def takenOnEqual : List CmpState := [.equal]

/-- `bne`; it is not the complement of `be` (assumption 23). -/
def takenOnNotEqual : List CmpState := [.lessThan, .greaterThan]

/-- `bg`. -/
def takenOnGreater : List CmpState := [.greaterThan]

/-- `bge`. -/
def takenOnGreaterOrEqual : List CmpState := [.equal, .greaterThan]

/-- `bl`. -/
def takenOnLess : List CmpState := [.lessThan]

/-- `ble`. -/
def takenOnLessOrEqual : List CmpState := [.equal, .lessThan]

end Sys2Proof.Machine
end

