-- ==== Sys2Proof/Syntax.lean ====
section
/-! DEFINITION. The murx instruction set as syntax: one constructor for each row of
spec/opcode_table.json (spec/30_encoding.md R61), its operands in assembly order (R51). A suffix names
the form: RR, RI, RM, MR, R, M; the opcodes of forms A and N and the two reserved ones have none. -/

namespace Sys2Proof

/-- One decoded instruction. Every operand is held at its encoded width, unscaled and unextended (R60). -/
inductive Instr where
  /-- `cp ra, rb`, opcode 0x01, form RR (R86). -/
  | cpRR (ra rb : Reg)
  /-- `cp ra, #imm`, opcode 0x02, form RI (R87). -/
  | cpRI (ra : Reg) (imm : Word)
  /-- `cp [addr], ra`, opcode 0x03, form MR (R88). -/
  | cpMR (addr : Word) (ra : Reg)
  /-- `cp ra, [addr]`, opcode 0x04, form RM (R89). -/
  | cpRM (ra : Reg) (addr : Word)
  /-- `add ra, rb`, opcode 0x05, form RR (R94). -/
  | addRR (ra rb : Reg)
  /-- `add ra, #imm`, opcode 0x06, form RI (R95). -/
  | addRI (ra : Reg) (imm : Word)
  /-- `add ra, [addr]`, opcode 0x07, form RM (R96). -/
  | addRM (ra : Reg) (addr : Word)
  /-- `sub ra, rb`, opcode 0x08, form RR (R97). -/
  | subRR (ra rb : Reg)
  /-- `sub ra, #imm`, opcode 0x09, form RI (R98). -/
  | subRI (ra : Reg) (imm : Word)
  /-- `sub ra, [addr]`, opcode 0x0A, form RM (R99). -/
  | subRM (ra : Reg) (addr : Word)
  /-- `mul ra, rb`, opcode 0x0B, form RR (R100). -/
  | mulRR (ra rb : Reg)
  /-- `mul ra, #imm`, opcode 0x0C, form RI (R101). -/
  | mulRI (ra : Reg) (imm : Word)
  /-- `mul ra, [addr]`, opcode 0x0D, form RM (R102). -/
  | mulRM (ra : Reg) (addr : Word)
  /-- `div ra, rb`, opcode 0x0E, form RR (R103). -/
  | divRR (ra rb : Reg)
  /-- `div ra, #imm`, opcode 0x0F, form RI (R104). -/
  | divRI (ra : Reg) (imm : Word)
  /-- `div ra, [addr]`, opcode 0x10, form RM (R105). -/
  | divRM (ra : Reg) (addr : Word)
  /-- `neg ra`, opcode 0x11, form R (R106). -/
  | negR (ra : Reg)
  /-- `neg [addr]`, opcode 0x12, form M (R107). -/
  | negM (addr : Word)
  /-- `xor ra, rb`, opcode 0x13, form RR (R111). -/
  | xorRR (ra rb : Reg)
  /-- `xor ra, #imm`, opcode 0x14, form RI (R112). -/
  | xorRI (ra : Reg) (imm : Word)
  /-- `xor ra, [addr]`, opcode 0x15, form RM (R113). -/
  | xorRM (ra : Reg) (addr : Word)
  /-- `and ra, rb`, opcode 0x16, form RR (R114). -/
  | andRR (ra rb : Reg)
  /-- `and ra, #imm`, opcode 0x17, form RI (R115). -/
  | andRI (ra : Reg) (imm : Word)
  /-- `and ra, [addr]`, opcode 0x18, form RM (R116). -/
  | andRM (ra : Reg) (addr : Word)
  /-- `or ra, rb`, opcode 0x19, form RR (R117). -/
  | orRR (ra rb : Reg)
  /-- `or ra, #imm`, opcode 0x1A, form RI (R118). -/
  | orRI (ra : Reg) (imm : Word)
  /-- `or ra, [addr]`, opcode 0x1B, form RM (R119). -/
  | orRM (ra : Reg) (addr : Word)
  /-- `not ra`, opcode 0x1C, form R (R120). -/
  | notR (ra : Reg)
  /-- `not [addr]`, opcode 0x1D, form M (R121). -/
  | notM (addr : Word)
  /-- `shr ra, rb`, opcode 0x1E, form RR (R123). -/
  | shrRR (ra rb : Reg)
  /-- `shr ra, #imm`, opcode 0x1F, form RI (R124). -/
  | shrRI (ra : Reg) (imm : Word)
  /-- `shl ra, rb`, opcode 0x20, form RR (R125). -/
  | shlRR (ra rb : Reg)
  /-- `shl ra, #imm`, opcode 0x21, form RI (R126). -/
  | shlRI (ra : Reg) (imm : Word)
  /-- `cmp ra, rb`, opcode 0x22, form RR (R131). -/
  | cmpRR (ra rb : Reg)
  /-- `cmp ra, #imm`, opcode 0x23, form RI (R132). -/
  | cmpRI (ra : Reg) (imm : Word)
  /-- `cmp ra, [addr]`, opcode 0x24, form RM (R133). -/
  | cmpRM (ra : Reg) (addr : Word)
  /-- `be target`, opcode 0x25, form A (R135). -/
  | be (target : Word)
  /-- `bne target`, opcode 0x26, form A (R136). -/
  | bne (target : Word)
  /-- `bg target`, opcode 0x27, form A (R137). -/
  | bg (target : Word)
  /-- `bge target`, opcode 0x28, form A (R138). -/
  | bge (target : Word)
  /-- `bl target`, opcode 0x29, form A (R139). -/
  | bl (target : Word)
  /-- `ble target`, opcode 0x2A, form A (R140). -/
  | ble (target : Word)
  /-- `bc target`, opcode 0x2B, form A (R141). -/
  | bc (target : Word)
  /-- `jmp target`, opcode 0x2C, form A (R142). -/
  | jmp (target : Word)
  /-- `puts`, opcode 0x2D, form reserved (R160). -/
  | puts
  /-- `getc`, opcode 0x2E, form reserved (R161). -/
  | getc
  /-- `call target`, opcode 0x2F, form A (R151). -/
  | call (target : Word)
  /-- `ret`, opcode 0x30, form N (R152). -/
  | ret
  /-- `halt`, opcode 0x31, form N (R162). -/
  | halt
  deriving DecidableEq, Repr

/-- The assembly mnemonic of an instruction, as the table of R61 spells it. -/
def Instr.mnemonic : Instr → String
  | .cpRR _ _ | .cpRI _ _ | .cpMR _ _ | .cpRM _ _ => "cp"
  | .addRR _ _ | .addRI _ _ | .addRM _ _ => "add"
  | .subRR _ _ | .subRI _ _ | .subRM _ _ => "sub"
  | .mulRR _ _ | .mulRI _ _ | .mulRM _ _ => "mul"
  | .divRR _ _ | .divRI _ _ | .divRM _ _ => "div"
  | .negR _ | .negM _ => "neg"
  | .xorRR _ _ | .xorRI _ _ | .xorRM _ _ => "xor"
  | .andRR _ _ | .andRI _ _ | .andRM _ _ => "and"
  | .orRR _ _ | .orRI _ _ | .orRM _ _ => "or"
  | .notR _ | .notM _ => "not"
  | .shrRR _ _ | .shrRI _ _ => "shr"
  | .shlRR _ _ | .shlRI _ _ => "shl"
  | .cmpRR _ _ | .cmpRI _ _ | .cmpRM _ _ => "cmp"
  | .be _ => "be"
  | .bne _ => "bne"
  | .bg _ => "bg"
  | .bge _ => "bge"
  | .bl _ => "bl"
  | .ble _ => "ble"
  | .bc _ => "bc"
  | .jmp _ => "jmp"
  | .puts => "puts"
  | .getc => "getc"
  | .call _ => "call"
  | .ret => "ret"
  | .halt => "halt"

end Sys2Proof
end

