-- ==== Sys2Proof/Decode.lean ====
section
/-! DEFINITION. The binary encoding of the murx instruction set: field extraction, the opcode table, the
total decoder and the encoder (spec/30_encoding.md R50 to R66). -/

namespace Sys2Proof

/-! ## Fields (R52 to R60) -/

/-- UNVERIFIED, unsafe (assumption 4): the register named by bits 7:4 of a register byte (R52, R59). -/
def highReg (b : Byte) : Reg := (b.extractLsb' 4 4).toFin

/-- UNVERIFIED, unsafe (assumption 4): the register named by bits 3:0 of a register byte (R52 to R56, R59). -/
def lowReg (b : Byte) : Reg := (b.extractLsb' 0 4).toFin

/-- The register byte of form RR: `ra` in bits 7:4, `rb` in bits 3:0 (R52). -/
def regPairByte (ra rb : Reg) : Byte := BitVec.ofNat 4 ra.val ++ BitVec.ofNat 4 rb.val

/-- The register byte of a one-register form, its spare high nibble written 0 (R53 to R56, R64). -/
def regByte (ra : Reg) : Byte := 0#4 ++ BitVec.ofNat 4 ra.val

/-- A 16-bit field from its two bytes in code order, the low byte first: `Code16` (R34, R60). -/
def wordOfBytes (lo hi : Byte) : Word := hi ++ lo

/-- Bits 7:0 of a 16-bit field (R34). -/
def lowByte (w : Word) : Byte := w.extractLsb' 0 8

/-- Bits 15:8 of a 16-bit field (R34). -/
def highByte (w : Word) : Byte := w.extractLsb' 8 8

/-! ## The opcode map (R61) -/

/-- What follows an opcode byte: one of the eight forms of R51, or nothing that is specified (R63). Each
carries the instruction its operands make. -/
inductive Layout where
  /-- register byte with two registers (R52) -/
  | rr (mk : Reg → Reg → Instr)
  /-- register byte, immediate low, immediate high (R53) -/
  | ri (mk : Reg → Word → Instr)
  /-- register byte, address low, address high (R54) -/
  | rm (mk : Reg → Word → Instr)
  /-- address low, address high, register byte (R55) -/
  | mr (mk : Word → Reg → Instr)
  /-- register byte with one register (R56) -/
  | r (mk : Reg → Instr)
  /-- address low, address high (R57) -/
  | m (mk : Word → Instr)
  /-- target low, target high (R58) -/
  | a (mk : Word → Instr)
  /-- no operand byte (R58) -/
  | n (i : Instr)
  /-- no operand byte is read and the length is unspecified (R63) -/
  | reserved (i : Instr)

/-- The opcode rows of cp (R86 to R89). -/
def moveRows : List (Byte × Layout) :=
  [(0x01#8, .rr .cpRR),
   (0x02#8, .ri .cpRI),
   (0x03#8, .mr .cpMR),
   (0x04#8, .rm .cpRM)]

/-- The opcode rows of add, sub, mul, div, neg (R94 to R107). -/
def arithRows : List (Byte × Layout) :=
  [(0x05#8, .rr .addRR),
   (0x06#8, .ri .addRI),
   (0x07#8, .rm .addRM),
   (0x08#8, .rr .subRR),
   (0x09#8, .ri .subRI),
   (0x0A#8, .rm .subRM),
   (0x0B#8, .rr .mulRR),
   (0x0C#8, .ri .mulRI),
   (0x0D#8, .rm .mulRM),
   (0x0E#8, .rr .divRR),
   (0x0F#8, .ri .divRI),
   (0x10#8, .rm .divRM),
   (0x11#8, .r .negR),
   (0x12#8, .m .negM)]

/-- The opcode rows of xor, and, or, not (R111 to R121). -/
def bitwiseRows : List (Byte × Layout) :=
  [(0x13#8, .rr .xorRR),
   (0x14#8, .ri .xorRI),
   (0x15#8, .rm .xorRM),
   (0x16#8, .rr .andRR),
   (0x17#8, .ri .andRI),
   (0x18#8, .rm .andRM),
   (0x19#8, .rr .orRR),
   (0x1A#8, .ri .orRI),
   (0x1B#8, .rm .orRM),
   (0x1C#8, .r .notR),
   (0x1D#8, .m .notM)]

/-- The opcode rows of shr, shl (R123 to R126). -/
def shiftRows : List (Byte × Layout) :=
  [(0x1E#8, .rr .shrRR),
   (0x1F#8, .ri .shrRI),
   (0x20#8, .rr .shlRR),
   (0x21#8, .ri .shlRI)]

/-- The opcode rows of cmp (R131 to R133). -/
def compareRows : List (Byte × Layout) :=
  [(0x22#8, .rr .cmpRR),
   (0x23#8, .ri .cmpRI),
   (0x24#8, .rm .cmpRM)]

/-- The opcode rows of the conditional branches and jmp (R135 to R142). -/
def branchRows : List (Byte × Layout) :=
  [(0x25#8, .a .be),
   (0x26#8, .a .bne),
   (0x27#8, .a .bg),
   (0x28#8, .a .bge),
   (0x29#8, .a .bl),
   (0x2A#8, .a .ble),
   (0x2B#8, .a .bc),
   (0x2C#8, .a .jmp)]

/-- The opcode rows of puts, getc, call, ret, halt (R151, R152, R160 to R162). -/
def systemRows : List (Byte × Layout) :=
  [(0x2D#8, .reserved .puts),
   (0x2E#8, .reserved .getc),
   (0x2F#8, .a .call),
   (0x30#8, .n .ret),
   (0x31#8, .n .halt)]

/-- The opcode map: all 49 opcode bytes, 0x01 to 0x31, each once (R61). -/
def opcodeTable : List (Byte × Layout) :=
  moveRows ++ arithRows ++ bitwiseRows ++ shiftRows ++ compareRows ++ branchRows ++ systemRows

/-- The operand layout of an opcode byte; `none` for the 207 invalid values (R62). -/
def layoutOf (op : Byte) : Option Layout := opcodeTable.lookup op

/-- The length in bytes of an instruction (R61); `none` where the spec leaves it unspecified (R63). -/
def instrLength : Instr → Option Nat
  | .cpRR _ _ | .addRR _ _ | .subRR _ _ | .mulRR _ _ | .divRR _ _ | .xorRR _ _
  | .andRR _ _ | .orRR _ _ | .shrRR _ _ | .shlRR _ _ | .cmpRR _ _ => some 2
  | .cpRI _ _ | .addRI _ _ | .subRI _ _ | .mulRI _ _ | .divRI _ _ | .xorRI _ _
  | .andRI _ _ | .orRI _ _ | .shrRI _ _ | .shlRI _ _ | .cmpRI _ _ => some 4
  | .cpRM _ _ | .addRM _ _ | .subRM _ _ | .mulRM _ _ | .divRM _ _ | .xorRM _ _
  | .andRM _ _ | .orRM _ _ | .cmpRM _ _ => some 4
  | .cpMR _ _ => some 4
  | .negR _ | .notR _ => some 2
  | .negM _ | .notM _ => some 3
  | .be _ | .bne _ | .bg _ | .bge _ | .bl _ | .ble _
  | .bc _ | .jmp _ | .call _ => some 3
  | .ret | .halt => some 1
  | .puts | .getc => none

/-! ## Decoding (R66) -/

/-- What the decoder answers. -/
inductive Decoded where
  /-- an instruction was recognised and all its bytes are there -/
  | instr (i : Instr)
  /-- the first byte is no defined opcode (R62) -/
  | unknownOpcode (byte : Byte)
  /-- a byte the instruction needs lies past the end of the bytes (R66, R72) -/
  | outOfBounds
  deriving DecidableEq, Repr

/-- The instruction a layout reads from the bytes after its opcode; `none` when they are cut off. Bytes
past the instruction are not looked at (R72). -/
def readOperands : Layout → List Byte → Option Instr
  | .rr mk, b :: _ => some (mk (highReg b) (lowReg b))
  | .ri mk, b :: lo :: hi :: _ => some (mk (lowReg b) (wordOfBytes lo hi))
  | .rm mk, b :: lo :: hi :: _ => some (mk (lowReg b) (wordOfBytes lo hi))
  | .mr mk, lo :: hi :: b :: _ => some (mk (wordOfBytes lo hi) (lowReg b))
  | .r mk, b :: _ => some (mk (lowReg b))
  | .m mk, lo :: hi :: _ => some (mk (wordOfBytes lo hi))
  | .a mk, lo :: hi :: _ => some (mk (wordOfBytes lo hi))
  | .n i, _ => some i
  | .reserved i, _ => some i
  | _, _ => none

/-- The decoder, total on any bytes: the first byte is validated before any operand byte is asked for
(R62, R66), and a truncated instruction is a bounds error (R72). -/
def decode : List Byte → Decoded
  | [] => .outOfBounds
  | op :: operands =>
    match layoutOf op with
    | none => .unknownOpcode op
    | some layout =>
      match readOperands layout operands with
      | none => .outOfBounds
      | some i => .instr i

/-! ## Encoding (R52 to R58, R61) -/

/-- Form RR. -/
def encodeRR (op : Byte) (ra rb : Reg) : List Byte := [op, regPairByte ra rb]

/-- Forms RI and RM: the register byte, then the 16-bit field. -/
def encodeRI (op : Byte) (ra : Reg) (w : Word) : List Byte := [op, regByte ra, lowByte w, highByte w]

/-- Form MR: the 16-bit field comes before the register byte (R55). -/
def encodeMR (op : Byte) (w : Word) (ra : Reg) : List Byte := [op, lowByte w, highByte w, regByte ra]

/-- Form R. -/
def encodeR (op : Byte) (ra : Reg) : List Byte := [op, regByte ra]

/-- Forms M and A: the 16-bit field alone. -/
def encodeM (op : Byte) (w : Word) : List Byte := [op, lowByte w, highByte w]

/-- The bytes of an instruction in code order. -/
def encode : Instr → List Byte
  | .cpRR ra rb => encodeRR 0x01#8 ra rb
  | .cpRI ra imm => encodeRI 0x02#8 ra imm
  | .cpMR addr ra => encodeMR 0x03#8 addr ra
  | .cpRM ra addr => encodeRI 0x04#8 ra addr
  | .addRR ra rb => encodeRR 0x05#8 ra rb
  | .addRI ra imm => encodeRI 0x06#8 ra imm
  | .addRM ra addr => encodeRI 0x07#8 ra addr
  | .subRR ra rb => encodeRR 0x08#8 ra rb
  | .subRI ra imm => encodeRI 0x09#8 ra imm
  | .subRM ra addr => encodeRI 0x0A#8 ra addr
  | .mulRR ra rb => encodeRR 0x0B#8 ra rb
  | .mulRI ra imm => encodeRI 0x0C#8 ra imm
  | .mulRM ra addr => encodeRI 0x0D#8 ra addr
  | .divRR ra rb => encodeRR 0x0E#8 ra rb
  | .divRI ra imm => encodeRI 0x0F#8 ra imm
  | .divRM ra addr => encodeRI 0x10#8 ra addr
  | .negR ra => encodeR 0x11#8 ra
  | .negM addr => encodeM 0x12#8 addr
  | .xorRR ra rb => encodeRR 0x13#8 ra rb
  | .xorRI ra imm => encodeRI 0x14#8 ra imm
  | .xorRM ra addr => encodeRI 0x15#8 ra addr
  | .andRR ra rb => encodeRR 0x16#8 ra rb
  | .andRI ra imm => encodeRI 0x17#8 ra imm
  | .andRM ra addr => encodeRI 0x18#8 ra addr
  | .orRR ra rb => encodeRR 0x19#8 ra rb
  | .orRI ra imm => encodeRI 0x1A#8 ra imm
  | .orRM ra addr => encodeRI 0x1B#8 ra addr
  | .notR ra => encodeR 0x1C#8 ra
  | .notM addr => encodeM 0x1D#8 addr
  | .shrRR ra rb => encodeRR 0x1E#8 ra rb
  | .shrRI ra imm => encodeRI 0x1F#8 ra imm
  | .shlRR ra rb => encodeRR 0x20#8 ra rb
  | .shlRI ra imm => encodeRI 0x21#8 ra imm
  | .cmpRR ra rb => encodeRR 0x22#8 ra rb
  | .cmpRI ra imm => encodeRI 0x23#8 ra imm
  | .cmpRM ra addr => encodeRI 0x24#8 ra addr
  | .be target => encodeM 0x25#8 target
  | .bne target => encodeM 0x26#8 target
  | .bg target => encodeM 0x27#8 target
  | .bge target => encodeM 0x28#8 target
  | .bl target => encodeM 0x29#8 target
  | .ble target => encodeM 0x2A#8 target
  | .bc target => encodeM 0x2B#8 target
  | .jmp target => encodeM 0x2C#8 target
  | .puts => [0x2D#8]
  | .getc => [0x2E#8]
  | .call target => encodeM 0x2F#8 target
  | .ret => [0x30#8]
  | .halt => [0x31#8]

/-! ## The host's numbering of instruction bits -/

/-- The bytes of an instruction whose bits are numbered as spec/opcode_table.json numbers them (byte k is
bits 8k+7 to 8k), with every bit from `nbits` up cleared, at the length of the longest instruction (R50). -/
def tableBytes (nbits w : Nat) : List Byte :=
  [0, 8, 16, 24].map fun shift => BitVec.ofNat 8 (w % 2 ^ nbits / 2 ^ shift)

/-- The instruction the decoder reads from a word of the opcode table; `none` where it refuses. -/
def decodeTableWord (nbits w : Nat) : Option Instr :=
  match decode (tableBytes nbits w) with
  | .instr i => some i
  | .unknownOpcode _ => none
  | .outOfBounds => none

/-- A code image with some bytes laid at an offset, zero bytes filling any gap before them. -/
def overlayBytes (code : List Byte) (offset : Nat) (bytes : List Byte) : List Byte :=
  code.take offset ++ List.replicate (offset - code.length) 0#8 ++ bytes ++
    code.drop (offset + bytes.length)

end Sys2Proof
end

