-- ==== Sys2Proof/WellFormed.lean ====
section
/-! DEFINITION. What is checked before a run. An instruction has nothing to check: each operand of
`Instr` has the type of its field, and every value of every field is legal (spec/30_encoding.md R59,
R60), so an ill-formed instruction cannot be written. What can be ill-formed is a code image. -/

namespace Sys2Proof

/-- A code image is in the spec's domain when it has at most 65536 bytes, zero included (R4, R31, R197).
Nothing else is checked at load time (R197). -/
def imageWellFormed (code : List Byte) : Bool := decide (code.length ≤ Config.maxImage)

end Sys2Proof
end

