-- ==== Sys2Proof/Machine/Ops.lean ====
section
/-! DEFINITION. The named operations of the machine: registers, data memory, the program-counter
sequencer, the call-frame stack, raising a fault, fetching, reset and loading. -/

namespace Sys2Proof.Machine

/-! ## Registers (R10) -/

/-- `x[r]`. -/
def State.readReg (s : State) (r : Reg) : Word := s.regs[r]

/-- `x[r] <- v`. Every register is an ordinary one (R11). -/
def State.writeReg (s : State) (r : Reg) (v : Word) : State :=
  { s with regs := s.regs.set r.val v r.isLt }

/-! ## Data memory (R30, R37) -/

/-- The value of a cell; one the list does not name holds `Config.initCell`. -/
def Memory.read (m : Memory) (a : Nat) : Word :=
  match m with
  | [] => Config.initCell
  | (b, w) :: rest => if a = b then w else Memory.read rest a

/-- The list without any entry for a cell. -/
def Memory.remove (m : Memory) (a : Nat) : Memory :=
  match m with
  | [] => []
  | (b, w) :: rest => if b = a then Memory.remove rest a else (b, w) :: Memory.remove rest a

/-- An entry put where the addresses keep rising, into a list that has none for that cell. -/
def Memory.insert (m : Memory) (a : Nat) (v : Word) : Memory :=
  match m with
  | [] => [(a, v)]
  | (b, w) :: rest => if a < b then (a, v) :: (b, w) :: rest else (b, w) :: Memory.insert rest a v

/-- Replace the value of a cell. Writing what an unlisted cell reads as removes the entry. -/
def Memory.write (m : Memory) (a : Nat) (v : Word) : Memory :=
  if v = Config.initCell then Memory.remove m a else Memory.insert (Memory.remove m a) a v

/-- The addresses of a memory list rise strictly, starting at `lo`, and stay below `Config.memCells`, and
no entry holds what an unlisted cell reads as. -/
def Memory.wfFrom (lo : Nat) (m : Memory) : Bool :=
  match m with
  | [] => true
  | (a, v) :: rest =>
    decide (lo ≤ a) && decide (a < Config.memCells) && decide (v ≠ Config.initCell) &&
      Memory.wfFrom (a + 1) rest

/-- The canonical form of data memory. -/
def Memory.wf (m : Memory) : Bool := Memory.wfFrom 0 m

/-- `MemRead(addr, 1)`: every 16-bit address names a cell (R30). -/
def State.readCell (s : State) (addr : Word) : Word := Memory.read s.mem addr.toNat

/-- `MemWrite(addr, 1, v)`. -/
def State.writeCell (s : State) (addr v : Word) : State :=
  { s with mem := Memory.write s.mem addr.toNat v }

/-! ## The program-counter sequencer (R76) -/

/-- The offset of the byte after an instruction of `len` bytes, 17 bits (R14; assumption 3). -/
def State.nextPc (s : State) (len : Nat) : PcVal := s.pc + BitVec.ofNat 17 len

/-- `pc <- next`: sequential advance. -/
def State.advance (s : State) (len : Nat) : State := { s with pc := s.nextPc len }

/-- `pc <- zext_17(target)`; the target is not checked (R16). -/
def State.jump (s : State) (target : Word) : State := { s with pc := target.setWidth 17 }

/-! ## The call-frame stack controller (R150) -/

/-- `depth`. -/
def State.depth (s : State) : Nat := s.frames.length

/-- `push`: `none` when the stack already holds `MAX_FRAMES` frames. -/
def State.pushFrame (s : State) (f : Frame) : Option State :=
  if s.depth < Config.maxFrames then some { s with frames := f :: s.frames } else none

/-- `pop`: the most recent frame and the state without it; `none` when there is no frame. -/
def State.popFrame (s : State) : Option (Frame × State) :=
  match s.frames with
  | [] => none
  | f :: rest => some (f, { s with frames := rest })

/-! ## Raising a fault (R170, R179) -/

/-- UNVERIFIED, unsafe (assumption 13): the numeric code of a fault (R170). -/
def errCodeOf : Fault → BitVec 3
  | .divisionByZero => 1#3
  | .unknownOpcode _ _ => 2#3
  | .stackOverflow => 3#3
  | .stackUnderflow => 4#3
  | .codeOutOfBounds => 5#3
  | .shiftAmountOutOfRange _ _ => 6#3
  | .unspecifiedInstruction _ _ => 7#3

/-- UNVERIFIED, unsafe (assumption 13): the information latched with a fault (R25, R170). -/
def errInfoOf : Fault → Word
  | .divisionByZero => 0#16
  | .unknownOpcode byte _ => byte.setWidth 16
  | .stackOverflow => 0#16
  | .stackUnderflow => 0#16
  | .codeOutOfBounds => 0#16
  | .shiftAmountOutOfRange amount _ => amount
  | .unspecifiedInstruction byte _ => byte.setWidth 16

/-- Fault commit: the status and the two latches are written, everything else holds, `pc` included (R179). -/
def State.raise (s : State) (f : Fault) : State :=
  { s with status := .faulted, errCode := errCodeOf f, errInfo := errInfoOf f }

/-- A step that raises a fault ends in the state R179 describes. There is no handler and no return from a
fault (R182, R183), so there is no operation that undoes this one but reset. -/
def takeFault (f : Fault) (s : State) : Host.Outcome State Fault Refusal := .next (s.raise f)

/-! ## Fetch (R66, R71, R72) -/

/-- `Decode(pc)`: what the decoder reads at the program counter; past the end there is no byte (R71). -/
def State.fetch (s : State) : Decoded := decode (s.code.drop s.pc.toNat)

/-! ## Reset and boot (R190, R194, R197) -/

/-- UNVERIFIED, unsafe (assumption 15): the `reset` input asserted in any state. The code image is not
touched (R194). -/
def State.assertReset (s : State) : State := { State.reset with code := s.code }

/-- The machine after reset with a code image supplied by the host (R197). -/
def State.boot (image : List Byte) : State := { State.reset with code := image }

end Sys2Proof.Machine
end

