-- ==== Sys2Proof/Machine/Operands.lean ====
section
/-! DEFINITION. The operand forms of the murx instruction set (spec/30_encoding.md R51): where a second
operand is read and where a result is written. -/

namespace Sys2Proof.Machine

/-- The second operand of the forms RR, RI and RM. -/
inductive Source where
  /-- form RR: register `rb` -/
  | reg (rb : Reg)
  /-- form RI: the immediate field, all sixteen bits (R60) -/
  | imm (v : Word)
  /-- form RM: the cell at the address field, the one addressing mode of data (R43) -/
  | cell (addr : Word)
  deriving DecidableEq, Repr

/-- The operand that an instruction of form R or M reads and writes, and that form MR writes. -/
inductive Place where
  /-- a register -/
  | reg (ra : Reg)
  /-- the cell at the address field -/
  | cell (addr : Word)
  deriving DecidableEq, Repr

/-- Operand read (R73, phase 3); it has no side effect (R33). -/
def State.readSource (s : State) : Source → Word
  | .reg rb => s.readReg rb
  | .imm v => v
  | .cell addr => s.readCell addr

/-- The old value of a place. -/
def State.readPlace (s : State) : Place → Word
  | .reg ra => s.readReg ra
  | .cell addr => s.readCell addr

/-- Write a result to a place. -/
def State.writePlace (s : State) (p : Place) (v : Word) : State :=
  match p with
  | .reg ra => s.writeReg ra v
  | .cell addr => s.writeCell addr v

end Sys2Proof.Machine
end

