-- ==== Sys2Proof/Machine/Arith.lean ====
section
/-! DEFINITION. The arithmetic family `add`, `sub`, `mul`, `div`, `neg` (spec/42_arithmetic.md R90 to R108). -/

namespace Sys2Proof.Machine

/-- The law of every arithmetic instruction: write the wrapped result, write the carry flag, advance
(R90). -/
def commitArith (dst : Place) (e : Int) (len : Nat) (s : State) : Host.Outcome State Fault Refusal :=
  .next (({ s.writePlace dst (wrap16 e) with carry := overflows e } : State).advance len)

/-- `ra <- ra op second operand` on the signed values (R91, R92; assumption 9). -/
def arith (op : Int → Int → Int) (ra : Reg) (src : Source) (len : Nat) (s : State) :
    Host.Outcome State Fault Refusal :=
  commitArith (.reg ra) (op (s16 (s.readReg ra)) (s16 (s.readSource src))) len s

/-- Division: a zero divisor raises the fault before anything is written (R93, R103). -/
def divide (ra : Reg) (src : Source) (len : Nat) (s : State) : Host.Outcome State Fault Refusal :=
  if s16 (s.readSource src) = 0 then takeFault .divisionByZero s
  else arith exactQuotient ra src len s

/-- UNVERIFIED, unsafe (assumption 5): negation writes the carry flag like the others (R106, R107). -/
def negate (dst : Place) (len : Nat) (s : State) : Host.Outcome State Fault Refusal :=
  commitArith dst (-(s16 (s.readPlace dst))) len s

/-- `add ra, rb` (R94). -/
def execAddRR (ra rb : Reg) (s : State) : Host.Outcome State Fault Refusal :=
  arith (fun a b => a + b) ra (.reg rb) 2 s

/-- `add ra, #imm` (R95). -/
def execAddRI (ra : Reg) (imm : Word) (s : State) : Host.Outcome State Fault Refusal :=
  arith (fun a b => a + b) ra (.imm imm) 4 s

/-- `add ra, [addr]` (R96). -/
def execAddRM (ra : Reg) (addr : Word) (s : State) : Host.Outcome State Fault Refusal :=
  arith (fun a b => a + b) ra (.cell addr) 4 s

/-- `sub ra, rb` (R97). -/
def execSubRR (ra rb : Reg) (s : State) : Host.Outcome State Fault Refusal :=
  arith (fun a b => a - b) ra (.reg rb) 2 s

/-- `sub ra, #imm` (R98). -/
def execSubRI (ra : Reg) (imm : Word) (s : State) : Host.Outcome State Fault Refusal :=
  arith (fun a b => a - b) ra (.imm imm) 4 s

/-- `sub ra, [addr]` (R99). -/
def execSubRM (ra : Reg) (addr : Word) (s : State) : Host.Outcome State Fault Refusal :=
  arith (fun a b => a - b) ra (.cell addr) 4 s

/-- `mul ra, rb` (R100). -/
def execMulRR (ra rb : Reg) (s : State) : Host.Outcome State Fault Refusal :=
  arith (fun a b => a * b) ra (.reg rb) 2 s

/-- `mul ra, #imm` (R101). -/
def execMulRI (ra : Reg) (imm : Word) (s : State) : Host.Outcome State Fault Refusal :=
  arith (fun a b => a * b) ra (.imm imm) 4 s

/-- `mul ra, [addr]` (R102). -/
def execMulRM (ra : Reg) (addr : Word) (s : State) : Host.Outcome State Fault Refusal :=
  arith (fun a b => a * b) ra (.cell addr) 4 s

/-- `div ra, rb` (R103). -/
def execDivRR (ra rb : Reg) (s : State) : Host.Outcome State Fault Refusal :=
  divide ra (.reg rb) 2 s

/-- `div ra, #imm` (R104). -/
def execDivRI (ra : Reg) (imm : Word) (s : State) : Host.Outcome State Fault Refusal :=
  divide ra (.imm imm) 4 s

/-- `div ra, [addr]` (R105). -/
def execDivRM (ra : Reg) (addr : Word) (s : State) : Host.Outcome State Fault Refusal :=
  divide ra (.cell addr) 4 s

/-- `neg ra` (R106). -/
def execNegR (ra : Reg) (s : State) : Host.Outcome State Fault Refusal :=
  negate (.reg ra) 2 s

/-- `neg [addr]` (R107). -/
def execNegM (addr : Word) (s : State) : Host.Outcome State Fault Refusal :=
  negate (.cell addr) 3 s

end Sys2Proof.Machine
end

