-- ==== Sys2Proof/Machine/Bitwise.lean ====
section
/-! DEFINITION. The bitwise and shift families (spec/43_bitwise_shift.md R110 to R127). -/

namespace Sys2Proof.Machine

/-- `ra <- ra op second operand`, bit by bit; no flag is written (R110). -/
def bitwise (op : Word → Word → Word) (ra : Reg) (src : Source) (len : Nat) (s : State) :
    Host.Outcome State Fault Refusal :=
  .next ((s.writeReg ra (op (s.readReg ra) (s.readSource src))).advance len)

/-- Every bit of a place inverted; no flag is written (R120, R121). -/
def complement (dst : Place) (len : Nat) (s : State) : Host.Outcome State Fault Refusal :=
  .next ((s.writePlace dst (s.readPlace dst ^^^ 0xFFFF#16)).advance len)

/-- UNVERIFIED, unsafe (assumption 6): a logical shift whose amount, read as signed, is range-checked
against 0 to 15 and never masked; no flag is written (R122). -/
def shift (op : Word → Nat → Word) (ra : Reg) (src : Source) (len : Nat) (s : State) :
    Host.Outcome State Fault Refusal :=
  if s16 (s.readSource src) < 0 ∨ s16 (s.readSource src) > 15 then
    takeFault (.shiftAmountOutOfRange (s.readSource src) s.pc) s
  else .next ((s.writeReg ra (op (s.readReg ra) (s.readSource src).toNat)).advance len)

/-- `xor ra, rb` (R111). -/
def execXorRR (ra rb : Reg) (s : State) : Host.Outcome State Fault Refusal :=
  bitwise (fun a b => a ^^^ b) ra (.reg rb) 2 s

/-- `xor ra, #imm` (R112). -/
def execXorRI (ra : Reg) (imm : Word) (s : State) : Host.Outcome State Fault Refusal :=
  bitwise (fun a b => a ^^^ b) ra (.imm imm) 4 s

/-- `xor ra, [addr]` (R113). -/
def execXorRM (ra : Reg) (addr : Word) (s : State) : Host.Outcome State Fault Refusal :=
  bitwise (fun a b => a ^^^ b) ra (.cell addr) 4 s

/-- `and ra, rb` (R114). -/
def execAndRR (ra rb : Reg) (s : State) : Host.Outcome State Fault Refusal :=
  bitwise (fun a b => a &&& b) ra (.reg rb) 2 s

/-- `and ra, #imm` (R115). -/
def execAndRI (ra : Reg) (imm : Word) (s : State) : Host.Outcome State Fault Refusal :=
  bitwise (fun a b => a &&& b) ra (.imm imm) 4 s

/-- `and ra, [addr]` (R116). -/
def execAndRM (ra : Reg) (addr : Word) (s : State) : Host.Outcome State Fault Refusal :=
  bitwise (fun a b => a &&& b) ra (.cell addr) 4 s

/-- `or ra, rb` (R117). -/
def execOrRR (ra rb : Reg) (s : State) : Host.Outcome State Fault Refusal :=
  bitwise (fun a b => a ||| b) ra (.reg rb) 2 s

/-- `or ra, #imm` (R118). -/
def execOrRI (ra : Reg) (imm : Word) (s : State) : Host.Outcome State Fault Refusal :=
  bitwise (fun a b => a ||| b) ra (.imm imm) 4 s

/-- `or ra, [addr]` (R119). -/
def execOrRM (ra : Reg) (addr : Word) (s : State) : Host.Outcome State Fault Refusal :=
  bitwise (fun a b => a ||| b) ra (.cell addr) 4 s

/-- `not ra` (R120). -/
def execNotR (ra : Reg) (s : State) : Host.Outcome State Fault Refusal :=
  complement (.reg ra) 2 s

/-- `not [addr]` (R121). -/
def execNotM (addr : Word) (s : State) : Host.Outcome State Fault Refusal :=
  complement (.cell addr) 3 s

/-- `shr ra, rb` (R123). -/
def execShrRR (ra rb : Reg) (s : State) : Host.Outcome State Fault Refusal :=
  shift (fun v n => v >>> n) ra (.reg rb) 2 s

/-- `shr ra, #imm` (R124). -/
def execShrRI (ra : Reg) (imm : Word) (s : State) : Host.Outcome State Fault Refusal :=
  shift (fun v n => v >>> n) ra (.imm imm) 4 s

/-- `shl ra, rb` (R125). -/
def execShlRR (ra rb : Reg) (s : State) : Host.Outcome State Fault Refusal :=
  shift (fun v n => v <<< n) ra (.reg rb) 2 s

/-- `shl ra, #imm` (R126). -/
def execShlRI (ra : Reg) (imm : Word) (s : State) : Host.Outcome State Fault Refusal :=
  shift (fun v n => v <<< n) ra (.imm imm) 4 s

end Sys2Proof.Machine
end

