-- ==== Sys2Proof/Machine/CallReturn.lean ====
section
/-! DEFINITION. Call and return (spec/45_call_return.md R150 to R155). -/

namespace Sys2Proof.Machine

/-- `call target` (R151): push a snapshot of the registers and the address after this instruction, then go
to the target. -/
def execCall (target : Word) (s : State) : Host.Outcome State Fault Refusal :=
  match s.pushFrame ⟨s.regs, s.nextPc 3⟩ with
  | none => takeFault .stackOverflow s
  | some pushed => .next (pushed.jump target)

/-- `ret` (R152): pop the most recent frame and restore all sixteen registers and `pc` from it. The flags
keep what the called routine left. -/
def execRet (s : State) : Host.Outcome State Fault Refusal :=
  match s.popFrame with
  | none => takeFault .stackUnderflow s
  | some (f, popped) => .next { popped with regs := f.regs, pc := f.ret }

end Sys2Proof.Machine
end

