-- ==== Sys2Proof/Machine/CompareBranch.lean ====
section
/-! DEFINITION. Compare, the conditional branches and the jump (spec/44_compare_branch.md R130 to R143). -/

namespace Sys2Proof.Machine

/-- The comparison state from the signed order of `ra` and the second operand; nothing else but `pc` is
written (R130; assumption 9). -/
def compareOperands (ra : Reg) (src : Source) (len : Nat) (s : State) : Host.Outcome State Fault Refusal :=
  .next (({ s with cmp := compareSigned (s.readReg ra) (s.readSource src) } : State).advance len)

/-- A 3-byte branch: to the absolute target when its condition holds, else past itself (R134). -/
def branchIf (taken : Bool) (target : Word) (s : State) : Host.Outcome State Fault Refusal :=
  .next (if taken then s.jump target else s.advance 3)

/-- `cmp ra, rb` (R131). -/
def execCmpRR (ra rb : Reg) (s : State) : Host.Outcome State Fault Refusal :=
  compareOperands ra (.reg rb) 2 s

/-- `cmp ra, #imm` (R132). -/
def execCmpRI (ra : Reg) (imm : Word) (s : State) : Host.Outcome State Fault Refusal :=
  compareOperands ra (.imm imm) 4 s

/-- `cmp ra, [addr]` (R133). -/
def execCmpRM (ra : Reg) (addr : Word) (s : State) : Host.Outcome State Fault Refusal :=
  compareOperands ra (.cell addr) 4 s

/-- `be target` (R135). -/
def execBe (target : Word) (s : State) : Host.Outcome State Fault Refusal :=
  branchIf (takenOnEqual.contains s.cmp) target s

/-- `bne target` (R136). -/
def execBne (target : Word) (s : State) : Host.Outcome State Fault Refusal :=
  branchIf (takenOnNotEqual.contains s.cmp) target s

/-- `bg target` (R137). -/
def execBg (target : Word) (s : State) : Host.Outcome State Fault Refusal :=
  branchIf (takenOnGreater.contains s.cmp) target s

/-- `bge target` (R138). -/
def execBge (target : Word) (s : State) : Host.Outcome State Fault Refusal :=
  branchIf (takenOnGreaterOrEqual.contains s.cmp) target s

/-- `bl target` (R139). -/
def execBl (target : Word) (s : State) : Host.Outcome State Fault Refusal :=
  branchIf (takenOnLess.contains s.cmp) target s

/-- `ble target` (R140). -/
def execBle (target : Word) (s : State) : Host.Outcome State Fault Refusal :=
  branchIf (takenOnLessOrEqual.contains s.cmp) target s

/-- `bc target` (R141). -/
def execBc (target : Word) (s : State) : Host.Outcome State Fault Refusal :=
  branchIf s.carry target s

/-- `jmp target` (R142). -/
def execJmp (target : Word) (s : State) : Host.Outcome State Fault Refusal :=
  .next (s.jump target)

end Sys2Proof.Machine
end

