-- ==== Sys2Proof/Machine/Move.lean ====
section
/-! DEFINITION. The move family `cp` (spec/41_move.md R85 to R89). -/

namespace Sys2Proof.Machine

/-- Copy a 16-bit pattern unchanged to its one destination and advance; no flag is written (R85). -/
def moveTo (dst : Place) (src : Source) (len : Nat) (s : State) : Host.Outcome State Fault Refusal :=
  .next ((s.writePlace dst (s.readSource src)).advance len)

/-- `cp ra, rb` (R86). -/
def execCpRR (ra rb : Reg) (s : State) : Host.Outcome State Fault Refusal :=
  moveTo (.reg ra) (.reg rb) 2 s

/-- `cp ra, #imm` (R87). -/
def execCpRI (ra : Reg) (imm : Word) (s : State) : Host.Outcome State Fault Refusal :=
  moveTo (.reg ra) (.imm imm) 4 s

/-- `cp [addr], ra` (R88). -/
def execCpMR (addr : Word) (ra : Reg) (s : State) : Host.Outcome State Fault Refusal :=
  moveTo (.cell addr) (.reg ra) 4 s

/-- `cp ra, [addr]` (R89). -/
def execCpRM (ra : Reg) (addr : Word) (s : State) : Host.Outcome State Fault Refusal :=
  moveTo (.reg ra) (.cell addr) 4 s

end Sys2Proof.Machine
end

