-- ==== Sys2Proof/Machine/System.lean ====
section
/-! DEFINITION. The system instructions `puts`, `getc` and `halt` (spec/46_system.md R160 to R163). -/

namespace Sys2Proof.Machine

/-- UNVERIFIED, unsafe (assumption 11): `puts` (R160). Its effect in the spec is the fault. -/
def execPuts (s : State) : Host.Outcome State Fault Refusal :=
  takeFault (.unspecifiedInstruction 0x2D#8 s.pc) s

/-- UNVERIFIED, unsafe (assumption 11): `getc` (R161). Its effect in the spec is the fault. -/
def execGetc (s : State) : Host.Outcome State Fault Refusal :=
  takeFault (.unspecifiedInstruction 0x2E#8 s.pc) s

/-- UNVERIFIED, unsafe (assumption 14): `halt` (R162); `pc` moves past it. -/
def execHalt (s : State) : Host.Outcome State Fault Refusal :=
  .next { s.advance 1 with status := .halted }

end Sys2Proof.Machine
end

