-- ==== Sys2Proof/Machine/Dispatch.lean ====
section
/-! DEFINITION. The meaning of every instruction, one arm each (spec/30_encoding.md R61). -/

namespace Sys2Proof.Machine

-- The effect of one decoded instruction on a state, whatever its status (assumption 19).
def exec (i : Instr) (s : State) : Host.Outcome State Fault Refusal :=
  match i with
  | .cpRR ra rb => Sys2Proof.Machine.execCpRR ra rb s
  | .cpRI ra imm => Sys2Proof.Machine.execCpRI ra imm s
  | .cpMR addr ra => Sys2Proof.Machine.execCpMR addr ra s
  | .cpRM ra addr => Sys2Proof.Machine.execCpRM ra addr s
  | .addRR ra rb => Sys2Proof.Machine.execAddRR ra rb s
  | .addRI ra imm => Sys2Proof.Machine.execAddRI ra imm s
  | .addRM ra addr => Sys2Proof.Machine.execAddRM ra addr s
  | .subRR ra rb => Sys2Proof.Machine.execSubRR ra rb s
  | .subRI ra imm => Sys2Proof.Machine.execSubRI ra imm s
  | .subRM ra addr => Sys2Proof.Machine.execSubRM ra addr s
  | .mulRR ra rb => Sys2Proof.Machine.execMulRR ra rb s
  | .mulRI ra imm => Sys2Proof.Machine.execMulRI ra imm s
  | .mulRM ra addr => Sys2Proof.Machine.execMulRM ra addr s
  | .divRR ra rb => Sys2Proof.Machine.execDivRR ra rb s
  | .divRI ra imm => Sys2Proof.Machine.execDivRI ra imm s
  | .divRM ra addr => Sys2Proof.Machine.execDivRM ra addr s
  | .negR ra => Sys2Proof.Machine.execNegR ra s
  | .negM addr => Sys2Proof.Machine.execNegM addr s
  | .xorRR ra rb => Sys2Proof.Machine.execXorRR ra rb s
  | .xorRI ra imm => Sys2Proof.Machine.execXorRI ra imm s
  | .xorRM ra addr => Sys2Proof.Machine.execXorRM ra addr s
  | .andRR ra rb => Sys2Proof.Machine.execAndRR ra rb s
  | .andRI ra imm => Sys2Proof.Machine.execAndRI ra imm s
  | .andRM ra addr => Sys2Proof.Machine.execAndRM ra addr s
  | .orRR ra rb => Sys2Proof.Machine.execOrRR ra rb s
  | .orRI ra imm => Sys2Proof.Machine.execOrRI ra imm s
  | .orRM ra addr => Sys2Proof.Machine.execOrRM ra addr s
  | .notR ra => Sys2Proof.Machine.execNotR ra s
  | .notM addr => Sys2Proof.Machine.execNotM addr s
  | .shrRR ra rb => Sys2Proof.Machine.execShrRR ra rb s
  | .shrRI ra imm => Sys2Proof.Machine.execShrRI ra imm s
  | .shlRR ra rb => Sys2Proof.Machine.execShlRR ra rb s
  | .shlRI ra imm => Sys2Proof.Machine.execShlRI ra imm s
  | .cmpRR ra rb => Sys2Proof.Machine.execCmpRR ra rb s
  | .cmpRI ra imm => Sys2Proof.Machine.execCmpRI ra imm s
  | .cmpRM ra addr => Sys2Proof.Machine.execCmpRM ra addr s
  | .be target => Sys2Proof.Machine.execBe target s
  | .bne target => Sys2Proof.Machine.execBne target s
  | .bg target => Sys2Proof.Machine.execBg target s
  | .bge target => Sys2Proof.Machine.execBge target s
  | .bl target => Sys2Proof.Machine.execBl target s
  | .ble target => Sys2Proof.Machine.execBle target s
  | .bc target => Sys2Proof.Machine.execBc target s
  | .jmp target => Sys2Proof.Machine.execJmp target s
  | .puts => Sys2Proof.Machine.execPuts s
  | .getc => Sys2Proof.Machine.execGetc s
  | .call target => Sys2Proof.Machine.execCall target s
  | .ret => Sys2Proof.Machine.execRet s
  | .halt => Sys2Proof.Machine.execHalt s

end Sys2Proof.Machine
end

