-- ==== Sys2Proof/Machine/Step.lean ====
section
/-! DEFINITION. One step of the machine (spec/40_step.md R70 to R80) and the host's way to place an
instruction where the next step fetches it. -/

namespace Sys2Proof.Machine

/-- One step request (R82). A halted or faulted machine does nothing (R80). A running one fetches at `pc`
and executes the instruction, or takes the fault that fetching or decoding raises (R71, R72). An image
longer than the spec's domain is refused (R197). -/
def step (s : State) : Host.Outcome State Fault Refusal :=
  match s.status with
  | .halted => .next s
  | .faulted => .next s
  | .running =>
    if imageWellFormed s.code then
      match s.fetch with
      | .instr i => exec i s
      | .unknownOpcode byte => takeFault (.unknownOpcode byte s.pc) s
      | .outOfBounds => takeFault .codeOutOfBounds s
    else .refused .codeImageTooLong

/-- A running machine whose code image holds, at `pc`, the instruction that spec/opcode_table.json numbers
as `w` (DESIGN CHOICE, safe; assumption 21). -/
def State.withFetchWord (s : State) (nbits w : Nat) : State :=
  { s with code := overlayBytes s.code s.pc.toNat (tableBytes nbits w), status := .running }

end Sys2Proof.Machine
end

