-- ==== Sys2Proof/Machine/Control.lean ====
section
/-! DEFINITION. The abstract, untimed control interface of the CORE (spec/40_step.md R82,
spec/70_reset_and_hazards.md R190). The step of the host's interface is the case of a step request with
reset not asserted. -/

namespace Sys2Proof.Machine

/-- UNVERIFIED, unsafe (assumption 15): the control inputs of one moment (R82). -/
structure Inputs where
  /-- `reset` -/
  reset : Bool
  /-- `step_req` -/
  stepReq : Bool
  deriving DecidableEq, Repr

/-- UNVERIFIED, unsafe (assumption 15): what the host sees (R82). -/
structure Outputs where
  /-- `status` -/
  status : Status
  /-- `err_code` -/
  errCode : BitVec 3
  /-- `err_info` -/
  errInfo : Word
  /-- `pc` -/
  pc : PcVal
  deriving DecidableEq, Repr

/-- The outputs are the registers of those names (R24 to R26, R82). -/
def State.outputs (s : State) : Outputs := ⟨s.status, s.errCode, s.errInfo, s.pc⟩

/-- UNVERIFIED, unsafe (assumption 15): the next state for the inputs of one moment. Reset has priority: a
step request made at the same time does not execute (R82, R190). With neither input nothing happens (R81). -/
def respond (inputs : Inputs) (s : State) : Host.Outcome State Fault Refusal :=
  if inputs.reset then .next s.assertReset
  else if inputs.stepReq then step s
  else .next s

/-- The answers to a sequence of inputs, one moment after the other. -/
def respondAll : List Inputs → State → Host.Outcome State Fault Refusal
  | [], s => .next s
  | inputs :: rest, s =>
    match respond inputs s with
    | .next t => respondAll rest t
    | .fault r => .fault r
    | .refused r => .refused r

end Sys2Proof.Machine
end

