-- ==== Sys2Proof/Safety.lean ====
section
/-! DEFINITION. The words that claims about MURX CORE are stated in: the invariant of the machine, the end
of a run, and what an instruction's next state holds, each said through the reads of registers and cells. -/

namespace Sys2Proof.Safety

open Sys2Proof.Machine

/-! ## The invariant (R25, R28) -/

/-- The fault latches agree with the status, and each fault's information is one its cause can leave: the
spec's decisions D11 and D14 (R24, R25, R170; assumptions 13 and 15). -/
structure LatchesAgree (s : State) : Prop where
  /-- a fault code is held exactly in `Faulted` -/
  faulted_iff : s.status = .faulted ↔ s.errCode ≠ 0#3
  /-- `UnknownOpcode` holds an invalid opcode byte -/
  unknown_info : s.errCode = 2#3 →
    s.errInfo.toNat = 0 ∨ (0x31 < s.errInfo.toNat ∧ s.errInfo.toNat < 256)
  /-- `ShiftAmountOutOfRange` holds an amount that is not 0 to 15 -/
  shift_info : s.errCode = 6#3 → 15 < s.errInfo.toNat
  /-- `UnspecifiedInstruction` holds one of the two reserved opcode bytes -/
  reserved_info : s.errCode = 7#3 → s.errInfo = 0x2D#16 ∨ s.errInfo = 0x2E#16
  /-- every other code holds 0 -/
  other_info : s.errCode ≠ 2#3 → s.errCode ≠ 6#3 → s.errCode ≠ 7#3 → s.errInfo = 0#16

/-- What holds of the machine at every moment. The bounds of `pc` and `depth` are the spec's (R28), and so
are the length of the image (R31), the saved return addresses (R22) and the latches. The canonical form of
data memory is no rule of the spec: it is the model's own (DEDUCED, assumption 17). -/
structure Inv (s : State) : Prop where
  /-- `0 <= pc <= 65536` (R28) -/
  pc_le : s.pc.toNat ≤ 65536
  /-- `0 <= depth <= 1000` (R28) -/
  depth_le : s.depth ≤ 1000
  /-- `CODE_LEN <= 65536` (R31) -/
  image_le : s.code.length ≤ 65536
  /-- every saved return address is a value in 3 to 65536 (R22) -/
  ret_range : ∀ f ∈ s.frames, 3 ≤ f.ret.toNat ∧ f.ret.toNat ≤ 65536
  /-- data memory is in its canonical form, the model's own (assumption 17) -/
  mem_wf : Memory.wf s.mem = true
  /-- the status and the fault latches agree -/
  latches : LatchesAgree s

/-! ## Runs (R77, R79) -/

/-- A run has ended when the status is no longer `Running` (R79). -/
def Ended (s : State) : Prop := s.status ≠ .running

/-- `n` steps from the machine that reset leaves with an image supplied (R77, R197). -/
def runFrom (image : List Byte) (n : Nat) : Host.Outcome State Fault Refusal :=
  Host.Core.run Sys2Proof.core n (State.boot image)

/-- Instructions executed one after the other by their meanings alone, without fetching. -/
def execAll : List Instr → State → Host.Outcome State Fault Refusal
  | [], s => .next s
  | i :: rest, s =>
    match exec i s with
    | .next t => execAll rest t
    | .fault r => .fault r
    | .refused r => .refused r

/-- A running machine with an image in the spec's domain, whose bytes from `pc` on are `bytes`. -/
structure FetchesFrom (s : State) (bytes : List Byte) : Prop where
  /-- step requests execute (R24) -/
  running : s.status = .running
  /-- `CODE_LEN <= 65536` (R31) -/
  image_le : s.code.length ≤ 65536
  /-- the bytes of the image at `pc` and after it -/
  bytes_eq : s.code.drop s.pc.toNat = bytes

/-! ## Fields of an instruction -/

/-- The index of the byte of an instruction whose high nibble is spare: the register byte of forms RI, RM
and R comes first after the opcode, that of form MR last (R53 to R56, R64). -/
def spareNibbleAt : Instr → Option Nat
  | .cpRI _ _ | .addRI _ _ | .subRI _ _ | .mulRI _ _ | .divRI _ _ | .xorRI _ _ | .andRI _ _
  | .orRI _ _ | .shrRI _ _ | .shlRI _ _ | .cmpRI _ _ => some 1
  | .cpRM _ _ | .addRM _ _ | .subRM _ _ | .mulRM _ _ | .divRM _ _ | .xorRM _ _ | .andRM _ _
  | .orRM _ _ | .cmpRM _ _ => some 1
  | .negR _ | .notR _ => some 1
  | .cpMR _ _ => some 3
  | .cpRR _ _ | .addRR _ _ | .subRR _ _ | .mulRR _ _ | .divRR _ _ | .xorRR _ _ | .andRR _ _
  | .orRR _ _ | .shrRR _ _ | .shlRR _ _ | .cmpRR _ _ => none
  | .negM _ | .notM _ => none
  | .be _ | .bne _ | .bg _ | .bge _ | .bl _ | .ble _ | .bc _ | .jmp _ | .call _ => none
  | .puts | .getc | .ret | .halt => none

/-- The destination register an instruction names, if it names one (R11). `ret` names none and writes all
sixteen. -/
def destReg : Instr → Option Reg
  | .cpRR ra _ | .cpRI ra _ | .cpRM ra _ => some ra
  | .addRR ra _ | .addRI ra _ | .addRM ra _ => some ra
  | .subRR ra _ | .subRI ra _ | .subRM ra _ => some ra
  | .mulRR ra _ | .mulRI ra _ | .mulRM ra _ => some ra
  | .divRR ra _ | .divRI ra _ | .divRM ra _ => some ra
  | .negR ra | .notR ra => some ra
  | .xorRR ra _ | .xorRI ra _ | .xorRM ra _ => some ra
  | .andRR ra _ | .andRI ra _ | .andRM ra _ => some ra
  | .orRR ra _ | .orRI ra _ | .orRM ra _ => some ra
  | .shrRR ra _ | .shrRI ra _ | .shlRR ra _ | .shlRI ra _ => some ra
  | .cpMR _ _ | .negM _ | .notM _ => none
  | .cmpRR _ _ | .cmpRI _ _ | .cmpRM _ _ => none
  | .be _ | .bne _ | .bg _ | .bge _ | .bl _ | .ble _ | .bc _ | .jmp _ | .call _ => none
  | .puts | .getc | .ret | .halt => none

/-- The ways a step may choose the next `pc` other than by going on: a branch or `jmp`, a `call` that has
room for its frame, a `ret` that finds one (R76). -/
def Transfers (s : State) (i : Instr) : Prop :=
  i.mnemonic ∈ ["be", "bne", "bg", "bge", "bl", "ble", "bc", "jmp"] ∨
  (i.mnemonic = "call" ∧ s.depth < 1000) ∨ (i.mnemonic = "ret" ∧ 0 < s.depth)

/-! ## What a next state holds -/

/-- Every register reads as before. -/
def SameRegs (s t : State) : Prop := ∀ r, t.readReg r = s.readReg r

/-- Register `ra` reads `v`; every other register reads as before. -/
def RegBecomes (s t : State) (ra : Reg) (v : Word) : Prop :=
  ∀ r, t.readReg r = if r = ra then v else s.readReg r

/-- Every cell of data memory reads as before. -/
def SameCells (s t : State) : Prop := ∀ a, t.readCell a = s.readCell a

/-- The cell at `addr` reads `v`; every other cell reads as before. -/
def CellBecomes (s t : State) (addr v : Word) : Prop :=
  ∀ a, t.readCell a = if a = addr then v else s.readCell a

/-- The call frames, the code image, the status and the fault latches are as before. -/
def SameControl (s t : State) : Prop :=
  t.frames = s.frames ∧ t.code = s.code ∧ t.status = s.status ∧ t.errCode = s.errCode ∧
    t.errInfo = s.errInfo

/-- Both flags are as before. -/
def SameFlags (s t : State) : Prop := t.carry = s.carry ∧ t.cmp = s.cmp

/-- The next state advances `pc` by `len`, puts `v` in register `ra`, and changes nothing else. -/
def WritesReg (s : State) (o : Host.Outcome State Fault Refusal) (ra : Reg) (len : Nat) (v : Word) :
    Prop :=
  ∃ t, o = .next t ∧ RegBecomes s t ra v ∧ SameCells s t ∧ SameFlags s t ∧ SameControl s t ∧
    t.pc = s.pc + BitVec.ofNat 17 len

/-- The next state advances `pc` by `len`, puts `v` in the cell `addr`, and changes nothing else. -/
def WritesCell (s : State) (o : Host.Outcome State Fault Refusal) (addr : Word) (len : Nat) (v : Word) :
    Prop :=
  ∃ t, o = .next t ∧ CellBecomes s t addr v ∧ SameRegs s t ∧ SameFlags s t ∧ SameControl s t ∧
    t.pc = s.pc + BitVec.ofNat 17 len

/-- As `WritesReg`, the value being `f` of two patterns bit by bit. -/
def WritesBits (s : State) (o : Host.Outcome State Fault Refusal) (ra : Reg) (len : Nat)
    (f : Bool → Bool → Bool) (x y : Word) : Prop :=
  ∃ v : Word, (∀ k, k < 16 → v.getLsbD k = f (x.getLsbD k) (y.getLsbD k)) ∧ WritesReg s o ra len v

/-- The next state advances `pc` by `len`, puts the exact result `e` modulo 65536 in register `ra`, sets
`carry` exactly when `e` is outside -32768 to 32767, and changes nothing else (the law of R90). -/
def ArithReg (s : State) (o : Host.Outcome State Fault Refusal) (ra : Reg) (len : Nat) (e : Int) :
    Prop :=
  ∃ t v, o = .next t ∧ (v.toNat : Int) = e % 65536 ∧ RegBecomes s t ra v ∧
    (t.carry = true ↔ e < -32768 ∨ 32767 < e) ∧ t.cmp = s.cmp ∧ SameCells s t ∧ SameControl s t ∧
    t.pc = s.pc + BitVec.ofNat 17 len

/-- As `ArithReg`, the result going to the cell `addr`. -/
def ArithCell (s : State) (o : Host.Outcome State Fault Refusal) (addr : Word) (len : Nat) (e : Int) :
    Prop :=
  ∃ t v, o = .next t ∧ (v.toNat : Int) = e % 65536 ∧ CellBecomes s t addr v ∧
    (t.carry = true ↔ e < -32768 ∨ 32767 < e) ∧ t.cmp = s.cmp ∧ SameRegs s t ∧ SameControl s t ∧
    t.pc = s.pc + BitVec.ofNat 17 len

/-- The next state advances `pc` by `len`, puts the signed order of `a` and `b` in the comparison state,
and changes nothing else. -/
def Compares (s : State) (o : Host.Outcome State Fault Refusal) (len : Nat) (a b : Word) : Prop :=
  ∃ t, o = .next t ∧
    (t.cmp = .lessThan ↔ a.toInt < b.toInt) ∧ (t.cmp = .equal ↔ a.toInt = b.toInt) ∧
    (t.cmp = .greaterThan ↔ b.toInt < a.toInt) ∧ t.cmp ≠ .none ∧
    t.carry = s.carry ∧ SameRegs s t ∧ SameCells s t ∧ SameControl s t ∧
    t.pc = s.pc + BitVec.ofNat 17 len

/-- The next state has `pc` at `dest` and changes nothing else. -/
def GoesTo (s : State) (o : Host.Outcome State Fault Refusal) (dest : PcVal) : Prop :=
  ∃ t, o = .next t ∧ t.pc = dest ∧ SameRegs s t ∧ SameCells s t ∧ SameFlags s t ∧ SameControl s t

/-- The next state is stopped by a fault with this code and information; every register, cell, flag and
frame, the code image and `pc` are as before (R179). -/
def StopsWith (s : State) (o : Host.Outcome State Fault Refusal) (code : BitVec 3) (info : Word) :
    Prop :=
  ∃ t, o = .next t ∧ t.status = .faulted ∧ t.errCode = code ∧ t.errInfo = info ∧ t.pc = s.pc ∧
    SameRegs s t ∧ SameCells s t ∧ SameFlags s t ∧ t.frames = s.frames ∧ t.code = s.code

end Sys2Proof.Safety
end

