-- ==== Sys2Proof/Certificates/Slice0/Obligations.lean ====
section
/-! DEFINITION. The statements about MURX CORE that are left to the provers. A docstring names the rules a
statement formalises; where it rests on a choice that the spec marks as its own decision or inference, it
names that decision and the log entry. -/

open Sys2Proof Sys2Proof.Machine Sys2Proof.Safety

/-! ## Move -/

/-- R85: each form of `cp` copies a 16-bit pattern to its one destination and advances; nothing else
changes, and no form faults. -/
def Obligations.MovesCopyOnePatternAndNothingElse : Prop :=
  ∀ s : State,
    (∀ ra rb, WritesReg s (exec (.cpRR ra rb) s) ra 2 (s.readReg rb)) ∧
    (∀ ra imm, WritesReg s (exec (.cpRI ra imm) s) ra 4 imm) ∧
    (∀ addr ra, WritesCell s (exec (.cpMR addr ra) s) addr 4 (s.readReg ra)) ∧
    (∀ ra addr, WritesReg s (exec (.cpRM ra addr) s) ra 4 (s.readCell addr))

/-! ## Arithmetic -/

/-- The law of arithmetic for `add`: the exact signed sum modulo 65536, and `carry` exactly when the sum
does not fit (conflict C1: signed overflow, assumption 24). -/
def Obligations.AddWritesWrappedSumAndSignedOverflow : Prop :=
  ∀ (s : State) (ra : Reg),
    (∀ rb, ArithReg s (exec (.addRR ra rb) s) ra 2 ((s.readReg ra).toInt + (s.readReg rb).toInt)) ∧
    (∀ imm, ArithReg s (exec (.addRI ra imm) s) ra 4 ((s.readReg ra).toInt + imm.toInt)) ∧
    (∀ addr, ArithReg s (exec (.addRM ra addr) s) ra 4
      ((s.readReg ra).toInt + (s.readCell addr).toInt))

/-- The same for `sub`, the first operand being the minuend: decision D7 of the spec (assumption 9). -/
def Obligations.SubWritesWrappedDifferenceAndSignedOverflow : Prop :=
  ∀ (s : State) (ra : Reg),
    (∀ rb, ArithReg s (exec (.subRR ra rb) s) ra 2 ((s.readReg ra).toInt - (s.readReg rb).toInt)) ∧
    (∀ imm, ArithReg s (exec (.subRI ra imm) s) ra 4 ((s.readReg ra).toInt - imm.toInt)) ∧
    (∀ addr, ArithReg s (exec (.subRM ra addr) s) ra 4
      ((s.readReg ra).toInt - (s.readCell addr).toInt))

/-- The same for `mul`: the full signed product. -/
def Obligations.MulWritesWrappedProductAndSignedOverflow : Prop :=
  ∀ (s : State) (ra : Reg),
    (∀ rb, ArithReg s (exec (.mulRR ra rb) s) ra 2 ((s.readReg ra).toInt * (s.readReg rb).toInt)) ∧
    (∀ imm, ArithReg s (exec (.mulRI ra imm) s) ra 4 ((s.readReg ra).toInt * imm.toInt)) ∧
    (∀ addr, ArithReg s (exec (.mulRM ra addr) s) ra 4
      ((s.readReg ra).toInt * (s.readCell addr).toInt))

/-- The result of `mul` is also the low half of the unsigned product of the two patterns. -/
def Obligations.MulResultIsLowHalfOfUnsignedProduct : Prop :=
  ∀ (s t : State) (ra : Reg),
    (∀ rb, exec (.mulRR ra rb) s = .next t →
      (t.readReg ra).toNat = (s.readReg ra).toNat * (s.readReg rb).toNat % 65536) ∧
    (∀ imm, exec (.mulRI ra imm) s = .next t →
      (t.readReg ra).toNat = (s.readReg ra).toNat * imm.toNat % 65536) ∧
    (∀ addr, exec (.mulRM ra addr) s = .next t →
      (t.readReg ra).toNat = (s.readReg ra).toNat * (s.readCell addr).toNat % 65536)

/-- `div` by a divisor that is not zero: the quotient of the magnitudes with the product of the signs, so
rounded toward zero (decisions D6 and D7 of the spec, assumptions 7 and 9); `carry` only for the one
quotient that does not fit. -/
def Obligations.DivWritesQuotientRoundedTowardZero : Prop :=
  ∀ (s : State) (ra : Reg),
    (∀ rb, s.readReg rb ≠ 0#16 → ArithReg s (exec (.divRR ra rb) s) ra 2
      ((s.readReg ra).toInt.sign * (s.readReg rb).toInt.sign *
        ((s.readReg ra).toInt.natAbs / (s.readReg rb).toInt.natAbs : Nat))) ∧
    (∀ imm : Word, imm ≠ 0#16 → ArithReg s (exec (.divRI ra imm) s) ra 4
      ((s.readReg ra).toInt.sign * imm.toInt.sign *
        ((s.readReg ra).toInt.natAbs / imm.toInt.natAbs : Nat))) ∧
    (∀ addr, s.readCell addr ≠ 0#16 → ArithReg s (exec (.divRM ra addr) s) ra 4
      ((s.readReg ra).toInt.sign * (s.readCell addr).toInt.sign *
        ((s.readReg ra).toInt.natAbs / (s.readCell addr).toInt.natAbs : Nat)))

/-- The `carry` of a completed `div` is true for -32768 / -1 alone (D6, D7; assumptions 7 and 9). -/
def Obligations.DivOverflowsOnlyForMinimumByMinusOne : Prop :=
  ∀ (s t : State) (ra : Reg),
    (∀ rb, s.readReg rb ≠ 0#16 → exec (.divRR ra rb) s = .next t →
      (t.carry = true ↔ s.readReg ra = 0x8000#16 ∧ s.readReg rb = 0xFFFF#16)) ∧
    (∀ imm : Word, imm ≠ 0#16 → exec (.divRI ra imm) s = .next t →
      (t.carry = true ↔ s.readReg ra = 0x8000#16 ∧ imm = 0xFFFF#16)) ∧
    (∀ addr, s.readCell addr ≠ 0#16 → exec (.divRM ra addr) s = .next t →
      (t.carry = true ↔ s.readReg ra = 0x8000#16 ∧ s.readCell addr = 0xFFFF#16))

/-- R171: the three `div` opcodes raise `DivisionByZero` exactly when the second operand is zero, with no
other effect, and raise no other fault (the numbers of the codes: decision D11, assumption 13). -/
def Obligations.DivByZeroFaultsWithNoEffect : Prop :=
  ∀ (s : State) (ra : Reg),
    (∀ rb, (s.readReg rb = 0#16 → StopsWith s (exec (.divRR ra rb) s) 1#3 0#16) ∧
      (s.readReg rb ≠ 0#16 → ∃ t, exec (.divRR ra rb) s = .next t ∧ SameControl s t)) ∧
    (∀ imm : Word, (imm = 0#16 → StopsWith s (exec (.divRI ra imm) s) 1#3 0#16) ∧
      (imm ≠ 0#16 → ∃ t, exec (.divRI ra imm) s = .next t ∧ SameControl s t)) ∧
    (∀ addr, (s.readCell addr = 0#16 → StopsWith s (exec (.divRM ra addr) s) 1#3 0#16) ∧
      (s.readCell addr ≠ 0#16 → ∃ t, exec (.divRM ra addr) s = .next t ∧ SameControl s t))

/-- `neg` writes the wrapped negation of its operand and the carry flag (decision D3 of the spec,
assumption 5), to a register or to a cell. -/
def Obligations.NegWritesNegationAndSignedOverflow : Prop :=
  ∀ s : State,
    (∀ ra, ArithReg s (exec (.negR ra) s) ra 2 (-(s.readReg ra).toInt)) ∧
    (∀ addr, ArithCell s (exec (.negM addr) s) addr 3 (-(s.readCell addr).toInt))

/-! ## Bitwise and shift -/

/-- R110: `xor`, `and`, `or` and `not` work bit by bit on their operands, write the first, and change
nothing else; only `not [addr]` writes a cell, and no shift does. -/
def Obligations.BitwiseWorksBitByBitAndLeavesFlags : Prop :=
  ∀ s : State,
    (∀ ra rb, WritesBits s (exec (.xorRR ra rb) s) ra 2 Bool.xor (s.readReg ra) (s.readReg rb)) ∧
    (∀ ra imm, WritesBits s (exec (.xorRI ra imm) s) ra 4 Bool.xor (s.readReg ra) imm) ∧
    (∀ ra addr, WritesBits s (exec (.xorRM ra addr) s) ra 4 Bool.xor (s.readReg ra)
      (s.readCell addr)) ∧
    (∀ ra rb, WritesBits s (exec (.andRR ra rb) s) ra 2 Bool.and (s.readReg ra) (s.readReg rb)) ∧
    (∀ ra imm, WritesBits s (exec (.andRI ra imm) s) ra 4 Bool.and (s.readReg ra) imm) ∧
    (∀ ra addr, WritesBits s (exec (.andRM ra addr) s) ra 4 Bool.and (s.readReg ra)
      (s.readCell addr)) ∧
    (∀ ra rb, WritesBits s (exec (.orRR ra rb) s) ra 2 Bool.or (s.readReg ra) (s.readReg rb)) ∧
    (∀ ra imm, WritesBits s (exec (.orRI ra imm) s) ra 4 Bool.or (s.readReg ra) imm) ∧
    (∀ ra addr, WritesBits s (exec (.orRM ra addr) s) ra 4 Bool.or (s.readReg ra)
      (s.readCell addr)) ∧
    (∀ ra, WritesBits s (exec (.notR ra) s) ra 2 (fun x _ => !x) (s.readReg ra) 0#16) ∧
    (∀ addr, ∃ v : Word, (∀ k, k < 16 → v.getLsbD k = !(s.readCell addr).getLsbD k) ∧
      WritesCell s (exec (.notM addr) s) addr 3 v) ∧
    (∀ t ra rb, exec (.shrRR ra rb) s = .next t → SameCells s t) ∧
    (∀ t ra imm, exec (.shrRI ra imm) s = .next t → SameCells s t) ∧
    (∀ t ra rb, exec (.shlRR ra rb) s = .next t → SameCells s t) ∧
    (∀ t ra imm, exec (.shlRI ra imm) s = .next t → SameCells s t)

/-- R121: `not [addr]`, its three bytes and its effect: the cell is read, then written with every bit
inverted; no register changes and no flag is written. -/
def Obligations.NotCellInvertsTheCellItNames : Prop :=
  (∀ lo hi rest, decode (0x1D#8 :: lo :: hi :: rest) = .instr (.notM (hi ++ lo))) ∧
  ∀ (s : State) (addr : Word), ∃ v : Word, v.toNat = 65535 - (s.readCell addr).toNat ∧
    v = s.readCell addr ^^^ 0xFFFF#16 ∧ WritesCell s (exec (.notM addr) s) addr 3 v

/-- A shift by 0 to 15: `shr` divides the unsigned value by a power of two, `shl` multiplies it and keeps
the low sixteen bits; no flag is written (decisions D4 and D7 of the spec, assumptions 6 and 9). -/
def Obligations.ShiftsInRangeAreLogical : Prop :=
  ∀ (s : State) (ra : Reg),
    (∀ rb, (s.readReg rb).toNat ≤ 15 →
      ∃ v : Word, v.toNat = (s.readReg ra).toNat / 2 ^ (s.readReg rb).toNat ∧
        WritesReg s (exec (.shrRR ra rb) s) ra 2 v) ∧
    (∀ imm : Word, imm.toNat ≤ 15 →
      ∃ v : Word, v.toNat = (s.readReg ra).toNat / 2 ^ imm.toNat ∧
        WritesReg s (exec (.shrRI ra imm) s) ra 4 v) ∧
    (∀ rb, (s.readReg rb).toNat ≤ 15 →
      ∃ v : Word, v.toNat = (s.readReg ra).toNat * 2 ^ (s.readReg rb).toNat % 65536 ∧
        WritesReg s (exec (.shlRR ra rb) s) ra 2 v) ∧
    (∀ imm : Word, imm.toNat ≤ 15 →
      ∃ v : Word, v.toNat = (s.readReg ra).toNat * 2 ^ imm.toNat % 65536 ∧
        WritesReg s (exec (.shlRI ra imm) s) ra 4 v)

/-- An amount that is negative or above 15, read as signed, raises `ShiftAmountOutOfRange` with the amount
pattern latched and no other effect; it is never masked (decision D4 of the spec, assumption 6). -/
def Obligations.ShiftsOutOfRangeFaultAndAreNotMasked : Prop :=
  ∀ (s : State) (ra : Reg),
    (∀ rb, ((s.readReg rb).toInt < 0 ∨ 15 < (s.readReg rb).toInt) →
      StopsWith s (exec (.shrRR ra rb) s) 6#3 (s.readReg rb) ∧
      StopsWith s (exec (.shlRR ra rb) s) 6#3 (s.readReg rb)) ∧
    (∀ imm : Word, (imm.toInt < 0 ∨ 15 < imm.toInt) →
      StopsWith s (exec (.shrRI ra imm) s) 6#3 imm ∧
      StopsWith s (exec (.shlRI ra imm) s) 6#3 imm)

/-! ## Compare, branch, jump -/

/-- `cmp` records the signed order of its first operand relative to the second and changes nothing else
(which operand is which: decision D7 of the spec, assumption 9). -/
def Obligations.CompareRecordsTheSignedOrder : Prop :=
  ∀ (s : State) (ra : Reg),
    (∀ rb, Compares s (exec (.cmpRR ra rb) s) 2 (s.readReg ra) (s.readReg rb)) ∧
    (∀ imm, Compares s (exec (.cmpRI ra imm) s) 4 (s.readReg ra) imm) ∧
    (∀ addr, Compares s (exec (.cmpRM ra addr) s) 4 (s.readReg ra) (s.readCell addr))

/-- R135 to R140: the three bytes of each branch on the comparison state and its operation, row by row of
its condition; a branch not taken goes past its three bytes, and only `pc` is written. -/
def Obligations.BranchesOnComparisonGoToTheirTarget : Prop :=
  (∀ lo hi rest,
    decode (0x25#8 :: lo :: hi :: rest) = .instr (.be (hi ++ lo)) ∧
    decode (0x26#8 :: lo :: hi :: rest) = .instr (.bne (hi ++ lo)) ∧
    decode (0x27#8 :: lo :: hi :: rest) = .instr (.bg (hi ++ lo)) ∧
    decode (0x28#8 :: lo :: hi :: rest) = .instr (.bge (hi ++ lo)) ∧
    decode (0x29#8 :: lo :: hi :: rest) = .instr (.bl (hi ++ lo)) ∧
    decode (0x2A#8 :: lo :: hi :: rest) = .instr (.ble (hi ++ lo))) ∧
  ∀ (s : State) (target : Word),
    GoesTo s (exec (.be target) s)
      (if s.cmp = .equal then target.setWidth 17 else s.pc + 3#17) ∧
    GoesTo s (exec (.bne target) s)
      (if s.cmp = .lessThan ∨ s.cmp = .greaterThan then target.setWidth 17 else s.pc + 3#17) ∧
    GoesTo s (exec (.bg target) s)
      (if s.cmp = .greaterThan then target.setWidth 17 else s.pc + 3#17) ∧
    GoesTo s (exec (.bge target) s)
      (if s.cmp = .equal ∨ s.cmp = .greaterThan then target.setWidth 17 else s.pc + 3#17) ∧
    GoesTo s (exec (.bl target) s)
      (if s.cmp = .lessThan then target.setWidth 17 else s.pc + 3#17) ∧
    GoesTo s (exec (.ble target) s)
      (if s.cmp = .equal ∨ s.cmp = .lessThan then target.setWidth 17 else s.pc + 3#17)

/-- Before the first `cmp` none of the six branches is taken, `bne` included: an inference that the spec
marks as its own in R134 (assumption 23). -/
def Obligations.NoBranchIsTakenBeforeTheFirstCompare : Prop :=
  ∀ (s : State) (target : Word) (i : Instr), s.cmp = .none →
    i ∈ [Instr.be target, .bne target, .bg target, .bge target, .bl target, .ble target] →
    GoesTo s (exec i s) (s.pc + 3#17)

/-- The three bytes of `bc` and `jmp` and their operation. `bc` reads `carry` alone and does not clear it;
`jmp` goes to its target unchecked, and a target outside the image faults at the next step (that fault is
decision D10 of the spec, assumption 12). -/
def Obligations.BranchOnCarryAndJumpGoToTheirTarget : Prop :=
  (∀ lo hi rest,
    decode (0x2B#8 :: lo :: hi :: rest) = .instr (.bc (hi ++ lo)) ∧
    decode (0x2C#8 :: lo :: hi :: rest) = .instr (.jmp (hi ++ lo))) ∧
  (∀ (s : State) (target : Word),
    GoesTo s (exec (.bc target) s)
      (if s.carry = true then target.setWidth 17 else s.pc + 3#17) ∧
    GoesTo s (exec (.jmp target) s) (target.setWidth 17)) ∧
  (∀ (s t : State) (target : Word), s.status = .running → s.code.length ≤ target.toNat →
    s.code.length ≤ 65536 → exec (.jmp target) s = .next t → StopsWith t (step t) 5#3 0#16)

/-! ## Call and return -/

/-- The three bytes of `call` and its operation below the bound: a frame with all sixteen registers and the
address after the `call`, computed in 17 bits without wrap (decision D2 of the spec, assumption 3), then the
unchecked target, which faults at the next step when it is outside the image (D10, assumption 12). -/
def Obligations.CallPushesAFrameAndGoesToItsTarget : Prop :=
  (∀ lo hi rest, decode (0x2F#8 :: lo :: hi :: rest) = .instr (.call (hi ++ lo))) ∧
  (∀ (s : State) (target : Word), s.depth < 1000 →
    ∃ t f, exec (.call target) s = .next t ∧ t.frames = f :: s.frames ∧ f.regs = s.regs ∧
      f.ret = s.pc + 3#17 ∧ t.depth = s.depth + 1 ∧ t.pc = target.setWidth 17 ∧ SameRegs s t ∧
      SameCells s t ∧ SameFlags s t ∧ t.code = s.code ∧ t.status = s.status ∧
      t.errCode = s.errCode ∧ t.errInfo = s.errInfo) ∧
  (∀ s : State, s.pc.toNat ≤ 65533 → (s.pc + 3#17).toNat = s.pc.toNat + 3) ∧
  (∀ (s : State) (target : Word), s.depth = 1000 →
    StopsWith s (exec (.call target) s) 3#3 0#16) ∧
  (∀ (s : State) (target : Word), s.depth < 1000 → s.status = .running →
    s.code.length ≤ target.toNat → s.code.length ≤ 65536 →
    ∃ t, exec (.call target) s = .next t ∧ t.depth = s.depth + 1 ∧ StopsWith t (step t) 5#3 0#16)

/-- R173: `call` with 1000 frames on the stack raises `StackOverflow` and changes nothing else. -/
def Obligations.CallOnAFullStackFaults : Prop :=
  ∀ (s : State) (target : Word), s.depth = 1000 → StopsWith s (exec (.call target) s) 3#3 0#16

/-- The byte of `ret` and its operation on a stack that holds a frame: all sixteen registers and `pc` from
the most recent frame, which is popped; memory and both flags keep their values (that the flags do is an
inference the spec marks as its own). -/
def Obligations.ReturnRestoresTheMostRecentFrame : Prop :=
  (∀ rest, decode (0x30#8 :: rest) = .instr .ret) ∧
  (∀ (s : State) (f : Frame) (below : List Frame), s.frames = f :: below →
    ∃ t, exec .ret s = .next t ∧ t.regs = f.regs ∧ t.pc = f.ret ∧ t.frames = below ∧
      t.depth + 1 = s.depth ∧ SameCells s t ∧ SameFlags s t ∧ t.code = s.code ∧
      t.status = s.status ∧ t.errCode = s.errCode ∧ t.errInfo = s.errInfo) ∧
  (∀ s : State, s.depth = 0 → StopsWith s (exec .ret s) 4#3 0#16)

/-- R174: `ret` with no frame raises `StackUnderflow` and changes nothing else. -/
def Obligations.ReturnOnAnEmptyStackFaults : Prop :=
  ∀ s : State, s.depth = 0 → StopsWith s (exec .ret s) 4#3 0#16

/-- A `call`, then anything that leaves the frames as the `call` left them, then `ret`: registers, frames
and the address after the `call` are back, everything else is what came between (an inference the spec
marks as its own in R154). -/
def Obligations.ReturnUndoesTheCallWhateverCameBetween : Prop :=
  ∀ (s t u : State) (target : Word), s.depth < 1000 → exec (.call target) s = .next t →
    u.frames = t.frames →
    exec .ret u = .next { u with regs := s.regs, pc := s.pc + 3#17, frames := s.frames }

/-- N nested calls followed by N returns, for every N the stack has room for: nothing differs from before
the first call but `pc`, which is past it (the source's property; an inference of the spec in R154). -/
def Obligations.NestedCallsThenReturnsRestoreTheMachine : Prop :=
  ∀ (targets : List Word) (s : State), targets ≠ [] → s.depth + targets.length ≤ 1000 →
    execAll (targets.map Instr.call ++ List.replicate targets.length .ret) s =
      .next { s with pc := s.pc + 3#17 }

/-! ## System -/

/-- `halt` moves `pc` past its one byte and stops the machine; everything else keeps its value (decisions
D12 and D14 of the spec, assumptions 14 and 15). -/
def Obligations.HaltStopsTheMachinePastItself : Prop :=
  ∀ s : State, ∃ t, exec .halt s = .next t ∧ t.status = .halted ∧ t.pc = s.pc + 1#17 ∧
    SameRegs s t ∧ SameCells s t ∧ SameFlags s t ∧ t.frames = s.frames ∧ t.code = s.code ∧
    t.errCode = s.errCode ∧ t.errInfo = s.errInfo

/-- The reserved opcodes decode without an operand byte, and each raises `UnspecifiedInstruction` with its
opcode byte latched and no other effect (decision D9 of the spec, assumption 11). -/
def Obligations.ReservedOpcodesDecodeAndFault : Prop :=
  (∀ rest, decode (0x2D#8 :: rest) = .instr .puts ∧ decode (0x2E#8 :: rest) = .instr .getc) ∧
  ∀ s : State, StopsWith s (exec .puts s) 7#3 0x002D#16 ∧ StopsWith s (exec .getc s) 7#3 0x002E#16

/-! ## Encoding -/

/-- Decoding an encoded instruction gives it back, whatever follows it: every instruction, every operand. -/
def Obligations.DecodeOfEncodeIsTheInstruction : Prop :=
  ∀ (i : Instr) (rest : List Byte), decode (encode i ++ rest) = .instr i

/-- The other direction: where the decoder reads an instruction, the bytes are its encoding, every one of
them, but for the high nibble of the register byte of forms RI, RM, R and MR, which the encoding has as 0
(decision D1 of the spec, assumption 4). -/
def Obligations.DecodedBytesAreTheEncodingButForASpareNibble : Prop :=
  ∀ (bytes : List Byte) (i : Instr), decode bytes = .instr i →
    (encode i).length ≤ bytes.length ∧ bytes.head? = (encode i).head? ∧
    ∀ (k : Nat) (b e : Byte), bytes[k]? = some b → (encode i)[k]? = some e →
      if spareNibbleAt i = some k then e = b &&& 0x0F#8 else e = b

/-- The spare high nibble of the register byte carries nothing: two images that differ there decode alike
(decision D1 of the spec, assumption 4). -/
def Obligations.SpareNibbleIsIgnored : Prop :=
  ∀ (b c : Byte) (rest : List Byte), b.extractLsb' 0 4 = c.extractLsb' 0 4 →
    (∀ op ∈ [0x02#8, 0x04#8, 0x06#8, 0x07#8, 0x09#8, 0x0A#8, 0x0C#8, 0x0D#8, 0x0F#8, 0x10#8, 0x11#8,
        0x14#8, 0x15#8, 0x17#8, 0x18#8, 0x1A#8, 0x1B#8, 0x1C#8, 0x1F#8, 0x21#8, 0x23#8, 0x24#8],
      decode (op :: b :: rest) = decode (op :: c :: rest)) ∧
    (∀ lo hi : Byte, decode (0x03#8 :: lo :: hi :: b :: rest) =
      decode (0x03#8 :: lo :: hi :: c :: rest))

/-- The opcode map has each of its 49 bytes once, and the decoder rejects as unknown exactly the byte 0x00
and the bytes above 0x31. -/
def Obligations.OpcodeMapIsOneToOneAndRejectsTheRest : Prop :=
  (opcodeTable.map Prod.fst).Nodup ∧ opcodeTable.length = 49 ∧
  ∀ (op : Byte) (rest : List Byte),
    decode (op :: rest) = .unknownOpcode op ↔ (op = 0x00#8 ∨ 0x31#8 < op)

/-- Words written out from the encoding tables decode to the instructions they stand for, one of each form
(the nibbles rest on decision D1 of the spec, assumption 4). -/
def Obligations.WordsFromTheTablesDecode : Prop :=
  decode [0x01#8, 0x31#8] = .instr (.cpRR 3 1) ∧
  decode [0x02#8, 0x00#8, 0xD0#8, 0x07#8] = .instr (.cpRI 0 2000#16) ∧
  decode [0x03#8, 0xFF#8, 0xFE#8, 0x07#8] = .instr (.cpMR 0xFEFF#16 7) ∧
  decode [0x04#8, 0x02#8, 0x34#8, 0x12#8] = .instr (.cpRM 2 0x1234#16) ∧
  decode [0x11#8, 0x03#8] = .instr (.negR 3) ∧
  decode [0x12#8, 0x00#8, 0x01#8] = .instr (.negM 0x0100#16) ∧
  decode [0x2C#8, 0x00#8, 0x10#8] = .instr (.jmp 0x1000#16) ∧
  decode [0x31#8] = .instr .halt

/-! ## The step -/

/-- Where the bytes at `pc` decode to an instruction, a step of a running machine is that instruction's
meaning at the same state; nothing is added around it. -/
def Obligations.StepRunsTheDecodedInstruction : Prop :=
  ∀ (s : State) (i : Instr), s.status = .running → s.code.length ≤ 65536 →
    decode (s.code.drop s.pc.toNat) = .instr i → step s = exec i s

/-- R62 and R172: an invalid opcode byte at `pc`, the last byte of the image included, stops the machine
with `UnknownOpcode` and the byte, and nothing else changes. -/
def Obligations.InvalidOpcodeAtPcFaults : Prop :=
  ∀ (s : State) (op : Byte) (rest : List Byte), FetchesFrom s (op :: rest) →
    (op = 0x00#8 ∨ 0x31#8 < op) → StopsWith s (step s) 2#3 (op.setWidth 16)

/-- A `pc` at or past the end of the image, or an instruction cut off by the end, stops the machine with
`CodeOutOfBounds` whatever the instruction would have done (decision D10 of the spec, assumption 12). -/
def Obligations.BytesPastTheImageFaultFirst : Prop :=
  (∀ s : State, s.status = .running → s.code.length ≤ 65536 → s.code.length ≤ s.pc.toNat →
    StopsWith s (step s) 5#3 0#16) ∧
  (∀ (s : State) (op : Byte) (rest : List Byte) (i : Instr) (n : Nat),
    FetchesFrom s (op :: rest) → decode (op :: List.replicate 3 0#8) = .instr i →
    instrLength i = some n → rest.length + 1 < n → StopsWith s (step s) 5#3 0#16)

/-- Every state whose image is in the spec's domain has a next state, whatever the image holds; a running
machine with a longer image has none (the precondition of decision D2, assumption 2). -/
def Obligations.EveryStepInTheDomainAnswersANextState : Prop :=
  (∀ s : State, s.code.length ≤ 65536 → ∃ t, step s = .next t) ∧
  (∀ s : State, s.status = .running → 65536 < s.code.length → step s = .refused .codeImageTooLong)

/-- `Halted` and `Faulted` are sticky: any number of step requests changes nothing (decision D12 of the
spec, assumption 14). -/
def Obligations.EndedRunsNeverChange : Prop :=
  ∀ (s : State) (n : Nat), Ended s → Host.Core.run Sys2Proof.core n s = .next s

/-- R74: a step that faults changes the status and the two latches and nothing else. -/
def Obligations.FaultingStepsAreAtomic : Prop :=
  ∀ s t : State, s.status = .running → step s = .next t → t.status = .faulted →
    t = { s with status := .faulted, errCode := t.errCode, errInfo := t.errInfo }

/-- A running machine becomes `Halted` exactly by the instruction `halt`. -/
def Obligations.OnlyHaltEndsARunInSuccess : Prop :=
  ∀ s t : State, s.status = .running → s.code.length ≤ 65536 → step s = .next t →
    (t.status = .halted ↔ s.fetch = .instr .halt)

/-- The value a step writes to `pc`: held by a fault and outside `Running` (sticky: decision D12 of the
spec, assumption 14); from the top frame by `ret`; the target for `jmp`, `call` and a branch whose condition
held before the step; else the address after the instruction, which does not wrap (17 bits: D2, assumption
3). No target is checked: a transfer leaves the machine running wherever it goes, and one outside the image
faults at the next step (D10, assumption 12). -/
def Obligations.SequencerWritesPcFromItsFourSources : Prop :=
  (∀ s t : State, s.status ≠ .running → step s = .next t → t.pc = s.pc) ∧
  (∀ s t : State, s.status = .running → step s = .next t → t.status = .faulted → t.pc = s.pc) ∧
  (∀ (s t : State) (i : Instr) (n : Nat), s.status = .running → s.code.length ≤ 65536 →
    step s = .next t → t.status ≠ .faulted → s.fetch = .instr i → instrLength i = some n →
    (s.pc + BitVec.ofNat 17 n).toNat = s.pc.toNat + n ∧
    match i with
    | .jmp target => t.pc = target.setWidth 17
    | .call target => t.pc = target.setWidth 17
    | .ret => ∃ f, s.frames.head? = some f ∧ t.pc = f.ret
    | .be target =>
      t.pc = if s.cmp = .equal then target.setWidth 17 else s.pc + BitVec.ofNat 17 n
    | .bne target =>
      t.pc = if s.cmp = .lessThan ∨ s.cmp = .greaterThan then target.setWidth 17
        else s.pc + BitVec.ofNat 17 n
    | .bg target =>
      t.pc = if s.cmp = .greaterThan then target.setWidth 17 else s.pc + BitVec.ofNat 17 n
    | .bge target =>
      t.pc = if s.cmp = .equal ∨ s.cmp = .greaterThan then target.setWidth 17
        else s.pc + BitVec.ofNat 17 n
    | .bl target =>
      t.pc = if s.cmp = .lessThan then target.setWidth 17 else s.pc + BitVec.ofNat 17 n
    | .ble target =>
      t.pc = if s.cmp = .equal ∨ s.cmp = .lessThan then target.setWidth 17
        else s.pc + BitVec.ofNat 17 n
    | .bc target =>
      t.pc = if s.carry = true then target.setWidth 17 else s.pc + BitVec.ofNat 17 n
    | _ => t.pc = s.pc + BitVec.ofNat 17 n) ∧
  (∀ (s : State) (i : Instr), s.status = .running → s.code.length ≤ 65536 → s.fetch = .instr i →
    Transfers s i → ∃ t, step s = .next t ∧ t.status = .running ∧
      (s.code.length ≤ t.pc.toNat → StopsWith t (step t) 5#3 0#16))

/-! ## Who writes and who reads each piece of state -/

/-- R42: no step changes the code image, and no store changes what is fetched. -/
def Obligations.NoStepChangesTheCodeImage : Prop :=
  (∀ s t : State, step s = .next t → t.code = s.code) ∧
  (∀ (s : State) (addr v : Word), (s.writeCell addr v).fetch = s.fetch)

/-- A register is changed only by `ret` or by an instruction whose destination field names that very
register. -/
def Obligations.RegistersChangeOnlyByDestinationsAndReturn : Prop :=
  ∀ (s t : State) (r : Reg), step s = .next t → t.readReg r ≠ s.readReg r →
    s.fetch = .instr .ret ∨ ∃ i, s.fetch = .instr i ∧ destReg i = some r

/-- The comparison state is changed only by `cmp`, and no step writes `None`. -/
def Obligations.OnlyCompareWritesTheComparisonState : Prop :=
  ∀ s t : State, step s = .next t →
    (t.cmp ≠ s.cmp → ∃ i, s.fetch = .instr i ∧ i.mnemonic = "cmp") ∧
    (t.cmp = .none → s.cmp = .none)

/-- The carry flag is changed only by the five arithmetic mnemonics (`neg` among them by decision D3 of the
spec, assumption 5). -/
def Obligations.OnlyArithmeticWritesTheCarryFlag : Prop :=
  ∀ s t : State, step s = .next t → t.carry ≠ s.carry →
    ∃ i, s.fetch = .instr i ∧ i.mnemonic ∈ ["add", "sub", "mul", "div", "neg"]

/-- A cell is changed only by `cp [addr], ra`, `neg [addr]` and `not [addr]`, and then it is the one at the
address field. -/
def Obligations.CellsChangeOnlyAtTheAddressAStoreNames : Prop :=
  ∀ (s t : State) (a : Word), step s = .next t → t.readCell a ≠ s.readCell a →
    (∃ ra, s.fetch = .instr (.cpMR a ra)) ∨ s.fetch = .instr (.negM a) ∨ s.fetch = .instr (.notM a)

/-- The call-frame stack is changed only by `call`, which leaves every frame under the new one, and by
`ret`, which leaves every frame under the top one. -/
def Obligations.FramesChangeOnlyByCallAndReturn : Prop :=
  ∀ s t : State, step s = .next t → t.frames ≠ s.frames →
    (∃ target, s.fetch = .instr (.call target) ∧ s.frames = t.frames.tail) ∨
    (s.fetch = .instr .ret ∧ t.frames = s.frames.tail)

/-- The frames are hidden state: an instruction other than `call` and `ret` does the same whatever they
hold, and leaves them alone. -/
def Obligations.FramesAreHiddenFromOtherInstructions : Prop :=
  ∀ (i : Instr) (s t : State) (fs : List Frame), i.mnemonic ≠ "call" → i.mnemonic ≠ "ret" →
    exec i s = .next t → exec i { s with frames := fs } = .next { t with frames := fs }

/-- The code image is reached by fetch alone: the meaning of an instruction does not depend on it. -/
def Obligations.CodeImageIsInvisibleToInstructions : Prop :=
  ∀ (i : Instr) (s t : State) (image : List Byte),
    exec i s = .next t → exec i { s with code := image } = .next { t with code := image }

/-- The comparison state is read by the six branches and nothing else, the carry flag by `bc` and nothing
else: any other instruction that does not write the flag carries its old value through and does the same
otherwise (who writes `carry` rests on decision D3 of the spec, assumption 5). -/
def Obligations.FlagsAreReadOnlyByTheirBranches : Prop :=
  (∀ (i : Instr) (s t : State) (c : CmpState),
    i.mnemonic ∉ ["be", "bne", "bg", "bge", "bl", "ble", "cmp"] →
    exec i s = .next t → exec i { s with cmp := c } = .next { t with cmp := c }) ∧
  (∀ (i : Instr) (s t : State) (c : Bool),
    i.mnemonic ∉ ["bc", "add", "sub", "mul", "div", "neg"] →
    exec i s = .next t → exec i { s with carry := c } = .next { t with carry := c })

/-! ## Memory, reset and the invariant -/

/-- Data memory has one canonical form: two canonical lists that read alike at every address are equal. The
list and its form are the model's own and no rule of the spec (DEDUCED, assumption 17); what is the spec's
is that there are 65536 addresses (R30). -/
def Obligations.CanonicalMemoriesThatReadAlikeAreEqual : Prop :=
  ∀ m n : Memory, Memory.wf m = true → Memory.wf n = true →
    (∀ a : Nat, a < 65536 → Memory.read m a = Memory.read n a) → m = n

/-- The values of the reset table. Those of the registers, the cells and `carry` are decision D8 of the
spec, those of the status and the latches D11 and D14 (assumptions 8, 13 and 15); the empty code image is
the model's choice (assumption 1). -/
def Obligations.ResetHoldsTheValuesOfTheTable : Prop :=
  State.reset.pc = 0#17 ∧ State.reset.depth = 0 ∧ State.reset.cmp = .none ∧
  State.reset.carry = false ∧ (∀ r, State.reset.readReg r = 0x0000#16) ∧
  (∀ a, State.reset.readCell a = 0x0000#16) ∧ State.reset.status = .running ∧
  State.reset.errCode = 0#3 ∧ State.reset.errInfo = 0#16 ∧ State.reset.code = []

/-- The reset input puts any state to the reset table and leaves the code image alone (decision D14 of the
spec, assumption 15). What it leaves meets the invariant, whose clause on the canonical form of data memory
is the model's own (assumption 17). -/
def Obligations.AssertingResetKeepsOnlyTheCodeImage : Prop :=
  ∀ s : State, s.assertReset = State.boot s.code ∧ s.assertReset.code = s.code ∧
    (s.code.length ≤ 65536 → Inv s.assertReset)

/-- The invariant holds at reset. The model's choices in it are the canonical form of data memory (assumption
17) and the empty code image that reset has here (assumption 1). -/
def Obligations.InvariantHoldsAtReset : Prop := Inv State.reset

/-- Every step keeps the invariant: the bounds of `pc`, of `depth`, of the image and of the saved return
addresses, the agreement of the latches with the status, and the canonical form of data memory. The last is
the model's own and no rule of the spec (assumption 17). -/
def Obligations.EveryStepKeepsTheInvariant : Prop :=
  ∀ s t : State, Inv s → step s = .next t → Inv t

/-- From any image in the spec's domain, any number of steps after reset is answered by a state that meets
the invariant and holds the same image. The invariant's clause on the canonical form of data memory is the
model's own (assumption 17). -/
def Obligations.EveryRunFromAnyImageStaysInTheInvariant : Prop :=
  ∀ (image : List Byte) (n : Nat), image.length ≤ 65536 →
    ∃ t, runFrom image n = .next t ∧ Inv t ∧ t.code = image

/-! ## The control interface -/

/-- Reset goes before a step request made at the same time, which does not execute; a step request alone is
a step, and with neither input nothing changes (the interface is decision D14 of the spec, assumption
15). -/
def Obligations.ResetHasPriorityOverAStepRequest : Prop :=
  ∀ s : State, (∀ stepReq, respond ⟨true, stepReq⟩ s = .next (State.boot s.code)) ∧
    respond ⟨false, true⟩ s = step s ∧ respond ⟨false, false⟩ s = .next s

/-- A reset discards the run in progress, whatever came before it and whether or not a step was asked for at
the same time: what follows is what follows a boot with the same image (decision D14 of the spec, assumption
15). -/
def Obligations.ResetBeginsTheSameRunAgain : Prop :=
  ∀ (before after : List Inputs) (stepReq : Bool) (s : State), s.code.length ≤ 65536 →
    respondAll (before ++ ⟨true, stepReq⟩ :: after) s = respondAll after (State.boot s.code)

/-- Whatever the host does with the two inputs, a machine that meets the invariant answers a state that
meets it and holds the same image. The interface is decision D14 of the spec (assumption 15), and the clause
on the canonical form of data memory is the model's own (assumption 17). -/
def Obligations.EveryInputSequenceStaysInTheInvariant : Prop :=
  ∀ (inputs : List Inputs) (s : State), Inv s →
    ∃ t, respondAll inputs s = .next t ∧ Inv t ∧ t.code = s.code
end

