-- ==== Sys2Proof/Laws/Control.lean ====
section
/-! SUPPORT. What the control interface answers to each input, said once. -/

namespace Sys2Proof.Machine

@[simp] theorem respond_reset (stepReq : Bool) (s : State) :
    respond ⟨true, stepReq⟩ s = .next s.assertReset := rfl

@[simp] theorem respond_stepReq (s : State) : respond ⟨false, true⟩ s = step s := rfl

@[simp] theorem respond_idle (s : State) : respond ⟨false, false⟩ s = .next s := rfl

/-- Whatever the inputs, a next state is the reset one, the old one, or that of a step. -/
theorem respond_cases {inputs : Inputs} {s t : State} (h : respond inputs s = .next t) :
    (inputs.reset = true ∧ t = s.assertReset) ∨
    (inputs.reset = false ∧ inputs.stepReq = true ∧ step s = .next t) ∨
    (inputs.reset = false ∧ inputs.stepReq = false ∧ t = s) := by
  obtain ⟨_ | _, _ | _⟩ := inputs
  · injection h with h; exact .inr (.inr ⟨rfl, rfl, h.symm⟩)
  · exact .inr (.inl ⟨rfl, rfl, h⟩)
  · injection h with h; exact .inl ⟨rfl, h.symm⟩
  · injection h with h; exact .inl ⟨rfl, h.symm⟩

theorem respondAll_cons_of_next {inputs : Inputs} {s t : State} (rest : List Inputs)
    (h : respond inputs s = .next t) : respondAll (inputs :: rest) s = respondAll rest t := by
  simp only [respondAll, h]

theorem respondAll_append_of_next {before : List Inputs} {s t : State} (after : List Inputs)
    (h : respondAll before s = .next t) : respondAll (before ++ after) s = respondAll after t := by
  induction before generalizing s with
  | nil => injection h with h; subst h; rfl
  | cons inputs rest ih =>
    simp only [List.cons_append, respondAll] at h ⊢
    split at h
    · exact ih h
    · cases h
    · cases h

end Sys2Proof.Machine
end

