-- ==== Sys2Proof/Laws/Decode.lean ====
section
/-! SUPPORT. The small lemmas of the encoding: fields and their inverses, the decoder by layout, and each
row of the opcode map beside the encoder of its form. -/

namespace Sys2Proof

/-! ## Fields -/

@[simp] theorem highReg_regPairByte (ra rb : Reg) : highReg (regPairByte ra rb) = ra := by
  revert ra rb; decide

@[simp] theorem lowReg_regPairByte (ra rb : Reg) : lowReg (regPairByte ra rb) = rb := by
  revert ra rb; decide

@[simp] theorem lowReg_regByte (ra : Reg) : lowReg (regByte ra) = ra := by
  revert ra; decide

theorem regPairByte_of_fields (b : Byte) : regPairByte (highReg b) (lowReg b) = b := by
  revert b; decide

/-- What is left of a register byte when its spare high nibble is written 0. -/
theorem regByte_lowReg (b : Byte) : regByte (lowReg b) = b &&& 0x0F#8 := by
  revert b; decide

@[simp] theorem lowByte_wordOfBytes (lo hi : Byte) : lowByte (wordOfBytes lo hi) = lo := by
  apply BitVec.eq_of_toNat_eq
  simp only [lowByte, wordOfBytes, BitVec.extractLsb'_toNat, BitVec.toNat_append, Nat.shiftRight_zero,
    Nat.shiftLeft_eq]
  rw [Nat.mul_comm, ← Nat.two_pow_add_eq_or_of_lt lo.isLt]
  have := lo.isLt
  omega

@[simp] theorem highByte_wordOfBytes (lo hi : Byte) : highByte (wordOfBytes lo hi) = hi := by
  apply BitVec.eq_of_toNat_eq
  simp only [highByte, wordOfBytes, BitVec.extractLsb'_toNat, BitVec.toNat_append,
    Nat.shiftRight_eq_div_pow, Nat.shiftLeft_eq]
  rw [Nat.mul_comm, ← Nat.two_pow_add_eq_or_of_lt lo.isLt]
  have := lo.isLt
  have := hi.isLt
  omega

@[simp] theorem wordOfBytes_of_fields (w : Word) : wordOfBytes (lowByte w) (highByte w) = w := by
  apply BitVec.eq_of_toNat_eq
  simp only [wordOfBytes, BitVec.toNat_append, Nat.shiftLeft_eq]
  rw [Nat.mul_comm, ← Nat.two_pow_add_eq_or_of_lt (lowByte w).isLt]
  simp only [lowByte, highByte, BitVec.extractLsb'_toNat, Nat.shiftRight_eq_div_pow]
  have := w.isLt
  omega

/-! ## The decoder -/

/-- The decoder answers exactly what the layout of the first byte reads. -/
theorem decode_cons_instr_iff (op : Byte) (operands : List Byte) (i : Instr) :
    decode (op :: operands) = .instr i ↔
      ∃ layout, layoutOf op = some layout ∧ readOperands layout operands = some i := by
  simp only [decode]
  split
  · next h => simp [h]
  · next layout h =>
    simp only [h, Option.some.injEq, exists_eq_left']
    split <;> simp_all

theorem decode_cons_unknown_iff (op : Byte) (operands : List Byte) (b : Byte) :
    decode (op :: operands) = .unknownOpcode b ↔ layoutOf op = none ∧ op = b := by
  simp only [decode]
  split
  · next h => simp [h]
  · next h => split <;> simp [h]

theorem lookup_mem {α β : Type} [BEq α] [LawfulBEq α] {l : List (α × β)} {a : α} {b : β}
    (h : l.lookup a = some b) : (a, b) ∈ l := by
  induction l with
  | nil => simp at h
  | cons e rest ih =>
    obtain ⟨c, d⟩ := e
    rw [List.lookup_cons] at h
    split at h
    · next hc => simp_all
    · exact List.mem_cons_of_mem _ (ih h)

theorem layoutOf_mem {op : Byte} {layout : Layout} (h : layoutOf op = some layout) :
    (op, layout) ∈ opcodeTable := lookup_mem h

/-- A row of the opcode map agrees with the encoder and with the length of its form. -/
def RowAgrees : Byte × Layout → Prop
  | (op, .rr mk) => ∀ ra rb, encode (mk ra rb) = encodeRR op ra rb ∧ instrLength (mk ra rb) = some 2
  | (op, .ri mk) => ∀ ra w, encode (mk ra w) = encodeRI op ra w ∧ instrLength (mk ra w) = some 4
  | (op, .rm mk) => ∀ ra w, encode (mk ra w) = encodeRI op ra w ∧ instrLength (mk ra w) = some 4
  | (op, .mr mk) => ∀ w ra, encode (mk w ra) = encodeMR op w ra ∧ instrLength (mk w ra) = some 4
  | (op, .r mk) => ∀ ra, encode (mk ra) = encodeR op ra ∧ instrLength (mk ra) = some 2
  | (op, .m mk) => ∀ w, encode (mk w) = encodeM op w ∧ instrLength (mk w) = some 3
  | (op, .a mk) => ∀ w, encode (mk w) = encodeM op w ∧ instrLength (mk w) = some 3
  | (op, .n i) => encode i = [op] ∧ instrLength i = some 1
  | (op, .reserved i) => encode i = [op] ∧ instrLength i = none

/-- Every row of the opcode map agrees with the encoder and the lengths. -/
theorem opcodeTable_agrees : ∀ row ∈ opcodeTable, RowAgrees row := by
  simp [opcodeTable, moveRows, arithRows, bitwiseRows, shiftRows, compareRows, branchRows, systemRows,
    RowAgrees, encode, instrLength]

end Sys2Proof
end

