-- ==== Sys2Proof/Laws/State.lean ====
section
/-! SUPPORT. What each update of the state does to each field, so that no later proof unfolds one. -/

namespace Sys2Proof.Machine

/-! ## `writeReg` -/

@[simp] theorem State.writeReg_regs (s : State) (r : Reg) (v : Word) :
    (s.writeReg r v).regs = s.regs.set r.val v r.isLt := rfl

@[simp] theorem State.writeReg_pc (s : State) (r : Reg) (v : Word) :
    (s.writeReg r v).pc = s.pc := rfl

@[simp] theorem State.writeReg_cmp (s : State) (r : Reg) (v : Word) :
    (s.writeReg r v).cmp = s.cmp := rfl

@[simp] theorem State.writeReg_carry (s : State) (r : Reg) (v : Word) :
    (s.writeReg r v).carry = s.carry := rfl

@[simp] theorem State.writeReg_frames (s : State) (r : Reg) (v : Word) :
    (s.writeReg r v).frames = s.frames := rfl

@[simp] theorem State.writeReg_mem (s : State) (r : Reg) (v : Word) :
    (s.writeReg r v).mem = s.mem := rfl

@[simp] theorem State.writeReg_code (s : State) (r : Reg) (v : Word) :
    (s.writeReg r v).code = s.code := rfl

@[simp] theorem State.writeReg_status (s : State) (r : Reg) (v : Word) :
    (s.writeReg r v).status = s.status := rfl

@[simp] theorem State.writeReg_errCode (s : State) (r : Reg) (v : Word) :
    (s.writeReg r v).errCode = s.errCode := rfl

@[simp] theorem State.writeReg_errInfo (s : State) (r : Reg) (v : Word) :
    (s.writeReg r v).errInfo = s.errInfo := rfl

/-! ## `writeCell` -/

@[simp] theorem State.writeCell_regs (s : State) (addr v : Word) :
    (s.writeCell addr v).regs = s.regs := rfl

@[simp] theorem State.writeCell_pc (s : State) (addr v : Word) :
    (s.writeCell addr v).pc = s.pc := rfl

@[simp] theorem State.writeCell_cmp (s : State) (addr v : Word) :
    (s.writeCell addr v).cmp = s.cmp := rfl

@[simp] theorem State.writeCell_carry (s : State) (addr v : Word) :
    (s.writeCell addr v).carry = s.carry := rfl

@[simp] theorem State.writeCell_frames (s : State) (addr v : Word) :
    (s.writeCell addr v).frames = s.frames := rfl

@[simp] theorem State.writeCell_mem (s : State) (addr v : Word) :
    (s.writeCell addr v).mem = Memory.write s.mem addr.toNat v := rfl

@[simp] theorem State.writeCell_code (s : State) (addr v : Word) :
    (s.writeCell addr v).code = s.code := rfl

@[simp] theorem State.writeCell_status (s : State) (addr v : Word) :
    (s.writeCell addr v).status = s.status := rfl

@[simp] theorem State.writeCell_errCode (s : State) (addr v : Word) :
    (s.writeCell addr v).errCode = s.errCode := rfl

@[simp] theorem State.writeCell_errInfo (s : State) (addr v : Word) :
    (s.writeCell addr v).errInfo = s.errInfo := rfl

/-! ## `advance` -/

@[simp] theorem State.advance_regs (s : State) (len : Nat) :
    (s.advance len).regs = s.regs := rfl

@[simp] theorem State.advance_pc (s : State) (len : Nat) :
    (s.advance len).pc = s.nextPc len := rfl

@[simp] theorem State.advance_cmp (s : State) (len : Nat) :
    (s.advance len).cmp = s.cmp := rfl

@[simp] theorem State.advance_carry (s : State) (len : Nat) :
    (s.advance len).carry = s.carry := rfl

@[simp] theorem State.advance_frames (s : State) (len : Nat) :
    (s.advance len).frames = s.frames := rfl

@[simp] theorem State.advance_mem (s : State) (len : Nat) :
    (s.advance len).mem = s.mem := rfl

@[simp] theorem State.advance_code (s : State) (len : Nat) :
    (s.advance len).code = s.code := rfl

@[simp] theorem State.advance_status (s : State) (len : Nat) :
    (s.advance len).status = s.status := rfl

@[simp] theorem State.advance_errCode (s : State) (len : Nat) :
    (s.advance len).errCode = s.errCode := rfl

@[simp] theorem State.advance_errInfo (s : State) (len : Nat) :
    (s.advance len).errInfo = s.errInfo := rfl

/-! ## `jump` -/

@[simp] theorem State.jump_regs (s : State) (target : Word) :
    (s.jump target).regs = s.regs := rfl

@[simp] theorem State.jump_pc (s : State) (target : Word) :
    (s.jump target).pc = target.setWidth 17 := rfl

@[simp] theorem State.jump_cmp (s : State) (target : Word) :
    (s.jump target).cmp = s.cmp := rfl

@[simp] theorem State.jump_carry (s : State) (target : Word) :
    (s.jump target).carry = s.carry := rfl

@[simp] theorem State.jump_frames (s : State) (target : Word) :
    (s.jump target).frames = s.frames := rfl

@[simp] theorem State.jump_mem (s : State) (target : Word) :
    (s.jump target).mem = s.mem := rfl

@[simp] theorem State.jump_code (s : State) (target : Word) :
    (s.jump target).code = s.code := rfl

@[simp] theorem State.jump_status (s : State) (target : Word) :
    (s.jump target).status = s.status := rfl

@[simp] theorem State.jump_errCode (s : State) (target : Word) :
    (s.jump target).errCode = s.errCode := rfl

@[simp] theorem State.jump_errInfo (s : State) (target : Word) :
    (s.jump target).errInfo = s.errInfo := rfl

/-! ## `raise` -/

@[simp] theorem State.raise_regs (s : State) (f : Fault) :
    (s.raise f).regs = s.regs := rfl

@[simp] theorem State.raise_pc (s : State) (f : Fault) :
    (s.raise f).pc = s.pc := rfl

@[simp] theorem State.raise_cmp (s : State) (f : Fault) :
    (s.raise f).cmp = s.cmp := rfl

@[simp] theorem State.raise_carry (s : State) (f : Fault) :
    (s.raise f).carry = s.carry := rfl

@[simp] theorem State.raise_frames (s : State) (f : Fault) :
    (s.raise f).frames = s.frames := rfl

@[simp] theorem State.raise_mem (s : State) (f : Fault) :
    (s.raise f).mem = s.mem := rfl

@[simp] theorem State.raise_code (s : State) (f : Fault) :
    (s.raise f).code = s.code := rfl

@[simp] theorem State.raise_status (s : State) (f : Fault) :
    (s.raise f).status = .faulted := rfl

@[simp] theorem State.raise_errCode (s : State) (f : Fault) :
    (s.raise f).errCode = errCodeOf f := rfl

@[simp] theorem State.raise_errInfo (s : State) (f : Fault) :
    (s.raise f).errInfo = errInfoOf f := rfl

/-! ## `writePlace` -/

@[simp] theorem State.writePlace_pc (s : State) (p : Place) (v : Word) :
    (s.writePlace p v).pc = s.pc := by cases p <;> rfl

@[simp] theorem State.writePlace_cmp (s : State) (p : Place) (v : Word) :
    (s.writePlace p v).cmp = s.cmp := by cases p <;> rfl

@[simp] theorem State.writePlace_carry (s : State) (p : Place) (v : Word) :
    (s.writePlace p v).carry = s.carry := by cases p <;> rfl

@[simp] theorem State.writePlace_frames (s : State) (p : Place) (v : Word) :
    (s.writePlace p v).frames = s.frames := by cases p <;> rfl

@[simp] theorem State.writePlace_code (s : State) (p : Place) (v : Word) :
    (s.writePlace p v).code = s.code := by cases p <;> rfl

@[simp] theorem State.writePlace_status (s : State) (p : Place) (v : Word) :
    (s.writePlace p v).status = s.status := by cases p <;> rfl

@[simp] theorem State.writePlace_errCode (s : State) (p : Place) (v : Word) :
    (s.writePlace p v).errCode = s.errCode := by cases p <;> rfl

@[simp] theorem State.writePlace_errInfo (s : State) (p : Place) (v : Word) :
    (s.writePlace p v).errInfo = s.errInfo := by cases p <;> rfl

@[simp] theorem State.writePlace_reg (s : State) (ra : Reg) (v : Word) :
    s.writePlace (.reg ra) v = s.writeReg ra v := rfl

@[simp] theorem State.writePlace_cell (s : State) (addr v : Word) :
    s.writePlace (.cell addr) v = s.writeCell addr v := rfl

/-! ## Operand reads -/

@[simp] theorem State.readSource_reg (s : State) (rb : Reg) : s.readSource (.reg rb) = s.readReg rb := rfl

@[simp] theorem State.readSource_imm (s : State) (v : Word) : s.readSource (.imm v) = v := rfl

@[simp] theorem State.readSource_cell (s : State) (addr : Word) :
    s.readSource (.cell addr) = s.readCell addr := rfl

@[simp] theorem State.readPlace_reg (s : State) (ra : Reg) : s.readPlace (.reg ra) = s.readReg ra := rfl

@[simp] theorem State.readPlace_cell (s : State) (addr : Word) :
    s.readPlace (.cell addr) = s.readCell addr := rfl

/-! ## Registers -/

/-- A register reads what was last written to it; every other register reads as before. -/
theorem State.readReg_writeReg (s : State) (ra r : Reg) (v : Word) :
    (s.writeReg ra v).readReg r = if r = ra then v else s.readReg r := by
  simp only [State.readReg, State.writeReg, Fin.getElem_fin, Vector.getElem_set, Fin.ext_iff]
  split <;> split <;> first | rfl | omega

/-- A register read depends on the register file alone. -/
theorem State.readReg_of_regs_eq {s t : State} (h : t.regs = s.regs) (r : Reg) :
    t.readReg r = s.readReg r := by
  simp [State.readReg, h]

/-- A cell read depends on data memory alone. -/
theorem State.readCell_of_mem_eq {s t : State} (h : t.mem = s.mem) (a : Word) :
    t.readCell a = s.readCell a := by
  simp [State.readCell, h]

end Sys2Proof.Machine
end

