-- ==== Sys2Proof/Laws/Memory.lean ====
section
/-! SUPPORT. The laws of data memory: read after write, and the canonical form, which every write keeps. -/

namespace Sys2Proof.Machine

@[simp] theorem Memory.read_nil (a : Nat) : Memory.read [] a = Config.initCell := rfl

theorem Memory.read_entry (b : Nat) (w : Word) (rest : Memory) (a : Nat) :
    Memory.read ((b, w) :: rest) a = if a = b then w else Memory.read rest a := rfl

/-- Removing a cell's entry leaves it unlisted and every other cell as it was. -/
theorem Memory.read_remove (m : Memory) (a b : Nat) :
    Memory.read (Memory.remove m a) b = if b = a then Config.initCell else Memory.read m b := by
  induction m with
  | nil => simp [Memory.remove]
  | cons e rest ih =>
    obtain ⟨c, w⟩ := e
    simp only [Memory.remove]
    split
    · rw [ih, Memory.read_entry]; split <;> [rfl; rw [if_neg (by omega)]]
    · rw [Memory.read_entry, Memory.read_entry, ih]
      split <;> split <;> first | rfl | omega

/-- An entry put into a list that has none for its cell is the one that is read. -/
theorem Memory.read_insert_remove (m : Memory) (a : Nat) (v : Word) (b : Nat) :
    Memory.read (Memory.insert (Memory.remove m a) a v) b = if b = a then v else Memory.read m b := by
  induction m with
  | nil => simp [Memory.remove, Memory.insert, Memory.read]
  | cons e rest ih =>
    obtain ⟨c, w⟩ := e
    simp only [Memory.remove]
    split
    · rw [ih, Memory.read_entry]; split <;> [rfl; rw [if_neg (by omega)]]
    · simp only [Memory.insert]
      split
      · rw [Memory.read_entry, Memory.read_entry, Memory.read_entry, Memory.read_remove]
        split
        · rfl
        · split <;> rfl
      · rw [Memory.read_entry, Memory.read_entry, ih]
        split <;> split <;> first | rfl | omega

/-- A cell reads what was last written to it; every other cell reads as before. No premise is needed:
the law holds of any list, canonical or not. -/
theorem Memory.read_write (m : Memory) (a : Nat) (v : Word) (b : Nat) :
    Memory.read (Memory.write m a v) b = if b = a then v else Memory.read m b := by
  unfold Memory.write
  split
  · next hv => rw [Memory.read_remove, hv]
  · exact Memory.read_insert_remove m a v b

theorem Memory.wfFrom_mono {lo lo' : Nat} {m : Memory} (hle : lo' ≤ lo)
    (h : Memory.wfFrom lo m = true) : Memory.wfFrom lo' m = true := by
  cases m with
  | nil => rfl
  | cons e rest =>
    obtain ⟨b, w⟩ := e
    simp only [Memory.wfFrom, Bool.and_eq_true, decide_eq_true_eq] at h ⊢
    exact ⟨⟨⟨by omega, h.1.1.2⟩, h.1.2⟩, h.2⟩

/-- In a list whose addresses start at `lo`, a lower address is unlisted. -/
theorem Memory.read_below {lo : Nat} {m : Memory} (h : Memory.wfFrom lo m = true) {a : Nat}
    (ha : a < lo) : Memory.read m a = Config.initCell := by
  induction m generalizing lo with
  | nil => rfl
  | cons e rest ih =>
    obtain ⟨b, w⟩ := e
    simp only [Memory.wfFrom, Bool.and_eq_true, decide_eq_true_eq] at h
    rw [Memory.read_entry, if_neg (by omega)]
    exact ih h.2 (by omega)

theorem Memory.wfFrom_remove {lo : Nat} {m : Memory} (a : Nat) (h : Memory.wfFrom lo m = true) :
    Memory.wfFrom lo (Memory.remove m a) = true := by
  induction m generalizing lo with
  | nil => rfl
  | cons e rest ih =>
    obtain ⟨b, w⟩ := e
    simp only [Memory.wfFrom, Bool.and_eq_true, decide_eq_true_eq] at h
    simp only [Memory.remove]
    split
    · exact Memory.wfFrom_mono (by omega) (ih h.2)
    · simp only [Memory.wfFrom, Bool.and_eq_true, decide_eq_true_eq]
      exact ⟨h.1, ih h.2⟩

theorem Memory.wfFrom_insert_remove {lo : Nat} {m : Memory} {a : Nat} {v : Word} (hlo : lo ≤ a)
    (ha : a < Config.memCells) (hv : v ≠ Config.initCell) (h : Memory.wfFrom lo m = true) :
    Memory.wfFrom lo (Memory.insert (Memory.remove m a) a v) = true := by
  induction m generalizing lo with
  | nil => simp [Memory.remove, Memory.insert, Memory.wfFrom, hlo, ha, hv]
  | cons e rest ih =>
    obtain ⟨b, w⟩ := e
    simp only [Memory.wfFrom, Bool.and_eq_true, decide_eq_true_eq] at h
    simp only [Memory.remove]
    split
    · exact ih hlo (Memory.wfFrom_mono (by omega) h.2)
    · simp only [Memory.insert]
      split
      · simp only [Memory.wfFrom, Bool.and_eq_true, decide_eq_true_eq]
        exact ⟨⟨⟨hlo, ha⟩, hv⟩, ⟨⟨⟨by omega, h.1.1.2⟩, h.1.2⟩, Memory.wfFrom_remove a h.2⟩⟩
      · simp only [Memory.wfFrom, Bool.and_eq_true, decide_eq_true_eq]
        exact ⟨h.1, ih (by omega) h.2⟩

/-- A write keeps the canonical form. -/
theorem Memory.wf_write {m : Memory} {a : Nat} (v : Word) (ha : a < Config.memCells)
    (h : Memory.wf m = true) : Memory.wf (Memory.write m a v) = true := by
  unfold Memory.write
  split
  · exact Memory.wfFrom_remove a h
  · next hv => exact Memory.wfFrom_insert_remove (Nat.zero_le a) ha hv h

/-- Every write that an instruction makes keeps the canonical form. -/
theorem State.writeCell_wf {s : State} (h : Memory.wf s.mem = true) (addr v : Word) :
    Memory.wf (s.writeCell addr v).mem = true :=
  Memory.wf_write v addr.isLt h

theorem State.writePlace_wf {s : State} (h : Memory.wf s.mem = true) (p : Place) (v : Word) :
    Memory.wf (s.writePlace p v).mem = true := by
  cases p with
  | reg ra => exact h
  | cell addr => exact State.writeCell_wf h addr v

/-- Data memory after reset is in its canonical form. -/
theorem State.reset_mem_wf : Memory.wf State.reset.mem = true := rfl

/-- A cell read after a cell write. -/
theorem State.readCell_writeCell (s : State) (addr v a : Word) :
    (s.writeCell addr v).readCell a = if a = addr then v else s.readCell a := by
  simp only [State.readCell, State.writeCell_mem, Memory.read_write, BitVec.toNat_inj]

end Sys2Proof.Machine
end

