-- ==== Sys2Proof/Laws/Ops.lean ====
section
/-! SUPPORT. What each shared operation of the machine can do, said once: cite these, unfold nothing. -/

namespace Sys2Proof.Machine

@[simp] theorem takeFault_eq (f : Fault) (s : State) : takeFault f s = .next (s.raise f) := rfl

/-! ## The call-frame stack -/

theorem State.pushFrame_room {s : State} (f : Frame) (h : s.depth < Config.maxFrames) :
    s.pushFrame f = some { s with frames := f :: s.frames } := if_pos h

theorem State.pushFrame_full {s : State} (f : Frame) (h : ¬ s.depth < Config.maxFrames) :
    s.pushFrame f = none := if_neg h

theorem State.popFrame_empty {s : State} (h : s.frames = []) : s.popFrame = none := by
  simp [State.popFrame, h]

theorem State.popFrame_cons {s : State} {f : Frame} {rest : List Frame} (h : s.frames = f :: rest) :
    s.popFrame = some (f, { s with frames := rest }) := by
  simp [State.popFrame, h]

/-! ## The families -/

@[simp] theorem moveTo_eq (dst : Place) (src : Source) (len : Nat) (s : State) :
    moveTo dst src len s = .next ((s.writePlace dst (s.readSource src)).advance len) := rfl

@[simp] theorem commitArith_eq (dst : Place) (e : Int) (len : Nat) (s : State) :
    commitArith dst e len s =
      .next (({ s.writePlace dst (wrap16 e) with carry := overflows e } : State).advance len) := rfl

theorem arith_eq (op : Int → Int → Int) (ra : Reg) (src : Source) (len : Nat) (s : State) :
    arith op ra src len s =
      commitArith (.reg ra) (op (s16 (s.readReg ra)) (s16 (s.readSource src))) len s := rfl

theorem divide_zero {src : Source} {s : State} (h : s16 (s.readSource src) = 0) (ra : Reg)
    (len : Nat) : divide ra src len s = .next (s.raise .divisionByZero) := if_pos h

theorem divide_nonzero {src : Source} {s : State} (h : s16 (s.readSource src) ≠ 0) (ra : Reg)
    (len : Nat) : divide ra src len s = arith exactQuotient ra src len s := if_neg h

theorem negate_eq (dst : Place) (len : Nat) (s : State) :
    negate dst len s = commitArith dst (-(s16 (s.readPlace dst))) len s := rfl

@[simp] theorem bitwise_eq (op : Word → Word → Word) (ra : Reg) (src : Source) (len : Nat) (s : State) :
    bitwise op ra src len s =
      .next ((s.writeReg ra (op (s.readReg ra) (s.readSource src))).advance len) := rfl

@[simp] theorem complement_eq (dst : Place) (len : Nat) (s : State) :
    complement dst len s =
      .next ((s.writePlace dst (s.readPlace dst ^^^ 0xFFFF#16)).advance len) := rfl

/-- The range check of a shift amount, said on the unsigned reading: 0 to 15 passes. -/
theorem shift_check (w : Word) : (s16 w < 0 ∨ s16 w > 15) ↔ 15 < w.toNat := by
  have := w.isLt
  simp only [s16, BitVec.toInt]
  split <;> omega

theorem shift_in_range {src : Source} {s : State} (h : (s.readSource src).toNat ≤ 15)
    (op : Word → Nat → Word) (ra : Reg) (len : Nat) :
    shift op ra src len s =
      .next ((s.writeReg ra (op (s.readReg ra) (s.readSource src).toNat)).advance len) :=
  if_neg (by rw [shift_check]; omega)

theorem shift_out_of_range {src : Source} {s : State} (h : 15 < (s.readSource src).toNat)
    (op : Word → Nat → Word) (ra : Reg) (len : Nat) :
    shift op ra src len s = .next (s.raise (.shiftAmountOutOfRange (s.readSource src) s.pc)) :=
  if_pos (by rw [shift_check]; exact h)

@[simp] theorem compareOperands_eq (ra : Reg) (src : Source) (len : Nat) (s : State) :
    compareOperands ra src len s =
      .next (({ s with cmp := compareSigned (s.readReg ra) (s.readSource src) } : State).advance len) :=
  rfl

@[simp] theorem branchIf_eq (taken : Bool) (target : Word) (s : State) :
    branchIf taken target s = .next (if taken then s.jump target else s.advance 3) := rfl

theorem execCall_room {s : State} (target : Word) (h : s.depth < Config.maxFrames) :
    execCall target s =
      .next (({ s with frames := ⟨s.regs, s.nextPc 3⟩ :: s.frames } : State).jump target) := by
  simp [execCall, State.pushFrame_room _ h]

theorem execCall_full {s : State} (target : Word) (h : ¬ s.depth < Config.maxFrames) :
    execCall target s = .next (s.raise .stackOverflow) := by
  simp [execCall, State.pushFrame_full _ h]

theorem execRet_empty {s : State} (h : s.frames = []) :
    execRet s = .next (s.raise .stackUnderflow) := by
  simp [execRet, State.popFrame_empty h]

theorem execRet_cons {s : State} {f : Frame} {rest : List Frame} (h : s.frames = f :: rest) :
    execRet s = .next { s with frames := rest, regs := f.regs, pc := f.ret } := by
  simp [execRet, State.popFrame_cons h]

/-! ## Flags -/

/-- A wrapped result, as the spec writes it: the integer modulo 65536. -/
theorem wrap16_toNat (e : Int) : ((wrap16 e).toNat : Int) = e % 65536 := by
  simp only [wrap16, BitVec.toNat_ofInt]
  omega

theorem overflows_iff (e : Int) : overflows e = true ↔ e < -32768 ∨ 32767 < e := by
  simp [overflows]

theorem compareSigned_lessThan (a b : Word) : compareSigned a b = .lessThan ↔ s16 a < s16 b := by
  unfold compareSigned; split <;> [simp_all; (split <;> simp_all)]

theorem compareSigned_equal (a b : Word) : compareSigned a b = .equal ↔ s16 a = s16 b := by
  unfold compareSigned
  split
  · next h => simp; omega
  · split <;> simp_all

theorem compareSigned_greaterThan (a b : Word) :
    compareSigned a b = .greaterThan ↔ s16 b < s16 a := by
  unfold compareSigned
  split
  · next h => simp; omega
  · split
    · next h => simp [h]
    · next h1 h2 => simp; omega

theorem compareSigned_ne_none (a b : Word) : compareSigned a b ≠ .none := by
  unfold compareSigned; split <;> [simp; (split <;> simp)]

end Sys2Proof.Machine
end

