-- ==== Sys2Proof/Laws/PerInstr.lean ====
section
/-! SUPPORT. Facts about instructions as syntax, one lemma for each constructor. -/

namespace Sys2Proof.Laws

/-- The encoding of an instruction begins with an opcode byte that the opcode map has, and is as long as
the map says (R50, R61). -/
def EncodedShape.Statement (i : Instr) : Prop :=
  (∃ op operands, encode i = op :: operands ∧ (layoutOf op).isSome = true) ∧
    ∀ n, instrLength i = some n → (encode i).length = n

theorem EncodedShape.cpRR (ra rb : Reg) : EncodedShape.Statement (.cpRR ra rb) :=
  ⟨⟨_, _, rfl, rfl⟩, by intro n h; cases h; rfl⟩

theorem EncodedShape.cpRI (ra : Reg) (imm : Word) : EncodedShape.Statement (.cpRI ra imm) :=
  ⟨⟨_, _, rfl, rfl⟩, by intro n h; cases h; rfl⟩

theorem EncodedShape.cpMR (addr : Word) (ra : Reg) : EncodedShape.Statement (.cpMR addr ra) :=
  ⟨⟨_, _, rfl, rfl⟩, by intro n h; cases h; rfl⟩

theorem EncodedShape.cpRM (ra : Reg) (addr : Word) : EncodedShape.Statement (.cpRM ra addr) :=
  ⟨⟨_, _, rfl, rfl⟩, by intro n h; cases h; rfl⟩

theorem EncodedShape.addRR (ra rb : Reg) : EncodedShape.Statement (.addRR ra rb) :=
  ⟨⟨_, _, rfl, rfl⟩, by intro n h; cases h; rfl⟩

theorem EncodedShape.addRI (ra : Reg) (imm : Word) : EncodedShape.Statement (.addRI ra imm) :=
  ⟨⟨_, _, rfl, rfl⟩, by intro n h; cases h; rfl⟩

theorem EncodedShape.addRM (ra : Reg) (addr : Word) : EncodedShape.Statement (.addRM ra addr) :=
  ⟨⟨_, _, rfl, rfl⟩, by intro n h; cases h; rfl⟩

theorem EncodedShape.subRR (ra rb : Reg) : EncodedShape.Statement (.subRR ra rb) :=
  ⟨⟨_, _, rfl, rfl⟩, by intro n h; cases h; rfl⟩

theorem EncodedShape.subRI (ra : Reg) (imm : Word) : EncodedShape.Statement (.subRI ra imm) :=
  ⟨⟨_, _, rfl, rfl⟩, by intro n h; cases h; rfl⟩

theorem EncodedShape.subRM (ra : Reg) (addr : Word) : EncodedShape.Statement (.subRM ra addr) :=
  ⟨⟨_, _, rfl, rfl⟩, by intro n h; cases h; rfl⟩

theorem EncodedShape.mulRR (ra rb : Reg) : EncodedShape.Statement (.mulRR ra rb) :=
  ⟨⟨_, _, rfl, rfl⟩, by intro n h; cases h; rfl⟩

theorem EncodedShape.mulRI (ra : Reg) (imm : Word) : EncodedShape.Statement (.mulRI ra imm) :=
  ⟨⟨_, _, rfl, rfl⟩, by intro n h; cases h; rfl⟩

theorem EncodedShape.mulRM (ra : Reg) (addr : Word) : EncodedShape.Statement (.mulRM ra addr) :=
  ⟨⟨_, _, rfl, rfl⟩, by intro n h; cases h; rfl⟩

theorem EncodedShape.divRR (ra rb : Reg) : EncodedShape.Statement (.divRR ra rb) :=
  ⟨⟨_, _, rfl, rfl⟩, by intro n h; cases h; rfl⟩

theorem EncodedShape.divRI (ra : Reg) (imm : Word) : EncodedShape.Statement (.divRI ra imm) :=
  ⟨⟨_, _, rfl, rfl⟩, by intro n h; cases h; rfl⟩

theorem EncodedShape.divRM (ra : Reg) (addr : Word) : EncodedShape.Statement (.divRM ra addr) :=
  ⟨⟨_, _, rfl, rfl⟩, by intro n h; cases h; rfl⟩

theorem EncodedShape.negR (ra : Reg) : EncodedShape.Statement (.negR ra) :=
  ⟨⟨_, _, rfl, rfl⟩, by intro n h; cases h; rfl⟩

theorem EncodedShape.negM (addr : Word) : EncodedShape.Statement (.negM addr) :=
  ⟨⟨_, _, rfl, rfl⟩, by intro n h; cases h; rfl⟩

theorem EncodedShape.xorRR (ra rb : Reg) : EncodedShape.Statement (.xorRR ra rb) :=
  ⟨⟨_, _, rfl, rfl⟩, by intro n h; cases h; rfl⟩

theorem EncodedShape.xorRI (ra : Reg) (imm : Word) : EncodedShape.Statement (.xorRI ra imm) :=
  ⟨⟨_, _, rfl, rfl⟩, by intro n h; cases h; rfl⟩

theorem EncodedShape.xorRM (ra : Reg) (addr : Word) : EncodedShape.Statement (.xorRM ra addr) :=
  ⟨⟨_, _, rfl, rfl⟩, by intro n h; cases h; rfl⟩

theorem EncodedShape.andRR (ra rb : Reg) : EncodedShape.Statement (.andRR ra rb) :=
  ⟨⟨_, _, rfl, rfl⟩, by intro n h; cases h; rfl⟩

theorem EncodedShape.andRI (ra : Reg) (imm : Word) : EncodedShape.Statement (.andRI ra imm) :=
  ⟨⟨_, _, rfl, rfl⟩, by intro n h; cases h; rfl⟩

theorem EncodedShape.andRM (ra : Reg) (addr : Word) : EncodedShape.Statement (.andRM ra addr) :=
  ⟨⟨_, _, rfl, rfl⟩, by intro n h; cases h; rfl⟩

theorem EncodedShape.orRR (ra rb : Reg) : EncodedShape.Statement (.orRR ra rb) :=
  ⟨⟨_, _, rfl, rfl⟩, by intro n h; cases h; rfl⟩

theorem EncodedShape.orRI (ra : Reg) (imm : Word) : EncodedShape.Statement (.orRI ra imm) :=
  ⟨⟨_, _, rfl, rfl⟩, by intro n h; cases h; rfl⟩

theorem EncodedShape.orRM (ra : Reg) (addr : Word) : EncodedShape.Statement (.orRM ra addr) :=
  ⟨⟨_, _, rfl, rfl⟩, by intro n h; cases h; rfl⟩

theorem EncodedShape.notR (ra : Reg) : EncodedShape.Statement (.notR ra) :=
  ⟨⟨_, _, rfl, rfl⟩, by intro n h; cases h; rfl⟩

theorem EncodedShape.notM (addr : Word) : EncodedShape.Statement (.notM addr) :=
  ⟨⟨_, _, rfl, rfl⟩, by intro n h; cases h; rfl⟩

theorem EncodedShape.shrRR (ra rb : Reg) : EncodedShape.Statement (.shrRR ra rb) :=
  ⟨⟨_, _, rfl, rfl⟩, by intro n h; cases h; rfl⟩

theorem EncodedShape.shrRI (ra : Reg) (imm : Word) : EncodedShape.Statement (.shrRI ra imm) :=
  ⟨⟨_, _, rfl, rfl⟩, by intro n h; cases h; rfl⟩

theorem EncodedShape.shlRR (ra rb : Reg) : EncodedShape.Statement (.shlRR ra rb) :=
  ⟨⟨_, _, rfl, rfl⟩, by intro n h; cases h; rfl⟩

theorem EncodedShape.shlRI (ra : Reg) (imm : Word) : EncodedShape.Statement (.shlRI ra imm) :=
  ⟨⟨_, _, rfl, rfl⟩, by intro n h; cases h; rfl⟩

theorem EncodedShape.cmpRR (ra rb : Reg) : EncodedShape.Statement (.cmpRR ra rb) :=
  ⟨⟨_, _, rfl, rfl⟩, by intro n h; cases h; rfl⟩

theorem EncodedShape.cmpRI (ra : Reg) (imm : Word) : EncodedShape.Statement (.cmpRI ra imm) :=
  ⟨⟨_, _, rfl, rfl⟩, by intro n h; cases h; rfl⟩

theorem EncodedShape.cmpRM (ra : Reg) (addr : Word) : EncodedShape.Statement (.cmpRM ra addr) :=
  ⟨⟨_, _, rfl, rfl⟩, by intro n h; cases h; rfl⟩

theorem EncodedShape.be (target : Word) : EncodedShape.Statement (.be target) :=
  ⟨⟨_, _, rfl, rfl⟩, by intro n h; cases h; rfl⟩

theorem EncodedShape.bne (target : Word) : EncodedShape.Statement (.bne target) :=
  ⟨⟨_, _, rfl, rfl⟩, by intro n h; cases h; rfl⟩

theorem EncodedShape.bg (target : Word) : EncodedShape.Statement (.bg target) :=
  ⟨⟨_, _, rfl, rfl⟩, by intro n h; cases h; rfl⟩

theorem EncodedShape.bge (target : Word) : EncodedShape.Statement (.bge target) :=
  ⟨⟨_, _, rfl, rfl⟩, by intro n h; cases h; rfl⟩

theorem EncodedShape.bl (target : Word) : EncodedShape.Statement (.bl target) :=
  ⟨⟨_, _, rfl, rfl⟩, by intro n h; cases h; rfl⟩

theorem EncodedShape.ble (target : Word) : EncodedShape.Statement (.ble target) :=
  ⟨⟨_, _, rfl, rfl⟩, by intro n h; cases h; rfl⟩

theorem EncodedShape.bc (target : Word) : EncodedShape.Statement (.bc target) :=
  ⟨⟨_, _, rfl, rfl⟩, by intro n h; cases h; rfl⟩

theorem EncodedShape.jmp (target : Word) : EncodedShape.Statement (.jmp target) :=
  ⟨⟨_, _, rfl, rfl⟩, by intro n h; cases h; rfl⟩

theorem EncodedShape.puts : EncodedShape.Statement (.puts) :=
  ⟨⟨_, _, rfl, rfl⟩, by intro n h; cases h⟩

theorem EncodedShape.getc : EncodedShape.Statement (.getc) :=
  ⟨⟨_, _, rfl, rfl⟩, by intro n h; cases h⟩

theorem EncodedShape.call (target : Word) : EncodedShape.Statement (.call target) :=
  ⟨⟨_, _, rfl, rfl⟩, by intro n h; cases h; rfl⟩

theorem EncodedShape.ret : EncodedShape.Statement (.ret) :=
  ⟨⟨_, _, rfl, rfl⟩, by intro n h; cases h; rfl⟩

theorem EncodedShape.halt : EncodedShape.Statement (.halt) :=
  ⟨⟨_, _, rfl, rfl⟩, by intro n h; cases h; rfl⟩

end Sys2Proof.Laws
end

