-- ==== Sys2Proof/Laws/Step.lean ====
section
/-! SUPPORT. What one step and one meaning can do, said once. -/

namespace Sys2Proof.Machine

theorem imageWellFormed_iff (code : List Byte) :
    imageWellFormed code = true ↔ code.length ≤ 65536 := decide_eq_true_iff

/-- If a step answers a next state, it did nothing because the run had ended, or it executed the
instruction at `pc`, or it took the fault of the fetch. -/
theorem step_cases {s t : State} (h : step s = .next t) :
    (s.status ≠ .running ∧ t = s) ∨
    (s.status = .running ∧ s.code.length ≤ 65536 ∧
      ((∃ i, s.fetch = .instr i ∧ exec i s = .next t) ∨
       (∃ byte, s.fetch = .unknownOpcode byte ∧ t = s.raise (.unknownOpcode byte s.pc)) ∨
       (s.fetch = .outOfBounds ∧ t = s.raise .codeOutOfBounds))) := by
  unfold step at h
  split at h
  · next hs => injection h with h; exact .inl ⟨by simp [hs], h.symm⟩
  · next hs => injection h with h; exact .inl ⟨by simp [hs], h.symm⟩
  · next hs =>
    split at h
    · next hi =>
      refine .inr ⟨hs, (imageWellFormed_iff _).1 hi, ?_⟩
      split at h
      · next i hf => exact .inl ⟨i, hf, h⟩
      · next byte hf => injection h with h; exact .inr (.inl ⟨byte, hf, h.symm⟩)
      · next hf => injection h with h; exact .inr (.inr ⟨hf, h.symm⟩)
    · cases h

/-- A run whose first step answers a next state goes on from it. -/
theorem run_succ_of_next (M : Host.Core) (n : Nat) {s t : M.State} (h : M.step s = .next t) :
    Host.Core.run M (n + 1) s = Host.Core.run M n t := by
  simp only [Host.Core.run, h]

/-- The same for MURX CORE. -/
theorem core_run_succ_of_next (n : Nat) {s t : State} (h : step s = .next t) :
    Host.Core.run Sys2Proof.core (n + 1) s = Host.Core.run Sys2Proof.core n t :=
  run_succ_of_next Sys2Proof.core n h

end Sys2Proof.Machine
end

