-- ==== Sys2Proof/Tests/Slice0.lean ====
section
/-! SUPPORT. Tests: words written out from the encoding tables of spec/30_encoding.md, one step of each
instruction from the vectors of spec/95_test_vectors.md (the comment of a test names its vector; where it
names none, the values were worked out by hand from the rule it names), the smoke test of the image
check, and for each obligation with hypotheses a state that meets them. -/

namespace Sys2Proof.Tests

open Sys2Proof.Machine Sys2Proof.Safety

/-- The machine after reset with this image, these registers and these cells. -/
def cpu (image : List Byte) (regs cells : List (Word × Word)) : State :=
  cells.foldl (fun s c => s.writeCell c.1 c.2)
    (regs.foldl (fun s r => s.writeReg (r.1.setWidth 4).toFin r.2) (State.boot image))

/-- What is seen of a next state; `none` for a fault or a refusal. -/
def seen {α : Type} (look : State → α) : Host.Outcome State Fault Refusal → Option α
  | .next t => some (look t)
  | .fault _ => none
  | .refused _ => none

/-- A faulted machine's code, information and program counter. -/
def latches (t : State) : Status × BitVec 3 × Word × PcVal := (t.status, t.errCode, t.errInfo, t.pc)

/-! ## Checks before a run -/

/-- An image of this many `halt` bytes. -/
def halts (n : Nat) : List Byte := List.replicate n 0x31#8

theorem halts_length (n : Nat) : (halts n).length = n := List.length_replicate

theorem test_image_of_65537_bytes_is_ill_formed : imageWellFormed (halts 65537) = false :=
  decide_eq_false (by rw [halts_length]; decide)

theorem test_image_of_65536_bytes_is_well_formed : imageWellFormed (halts 65536) = true :=
  decide_eq_true (by rw [halts_length]; decide)

theorem test_too_long_image_is_refused :
    step (State.boot (halts 65537)) = .refused .codeImageTooLong := by
  have h := test_image_of_65537_bytes_is_ill_formed
  generalize halts 65537 = image at h ⊢
  simp [step, State.boot, State.reset, h]

/-! ## Decoding: words written out from the tables of R52 to R58 and R61 -/

theorem test_decode_move :
    decode [0x01#8, 0x31#8] = .instr (.cpRR 3 1) ∧
    decode [0x02#8, 0x05#8, 0xCD#8, 0xAB#8] = .instr (.cpRI 5 0xABCD#16) ∧
    decode [0x03#8, 0x34#8, 0x12#8, 0x0E#8] = .instr (.cpMR 0x1234#16 14) ∧
    decode [0x04#8, 0x09#8, 0x78#8, 0x56#8] = .instr (.cpRM 9 0x5678#16) := by decide

theorem test_decode_add_sub :
    decode [0x05#8, 0xA2#8] = .instr (.addRR 10 2) ∧
    decode [0x06#8, 0x03#8, 0x01#8, 0x80#8] = .instr (.addRI 3 0x8001#16) ∧
    decode [0x07#8, 0x0F#8, 0x02#8, 0x01#8] = .instr (.addRM 15 0x0102#16) ∧
    decode [0x08#8, 0x1C#8] = .instr (.subRR 1 12) ∧
    decode [0x09#8, 0x04#8, 0xFE#8, 0xFF#8] = .instr (.subRI 4 0xFFFE#16) ∧
    decode [0x0A#8, 0x06#8, 0x10#8, 0x20#8] = .instr (.subRM 6 0x2010#16) := by decide

theorem test_decode_mul_div :
    decode [0x0B#8, 0x7B#8] = .instr (.mulRR 7 11) ∧
    decode [0x0C#8, 0x08#8, 0x2C#8, 0x01#8] = .instr (.mulRI 8 300#16) ∧
    decode [0x0D#8, 0x02#8, 0x00#8, 0x01#8] = .instr (.mulRM 2 0x0100#16) ∧
    decode [0x0E#8, 0xD4#8] = .instr (.divRR 13 4) ∧
    decode [0x0F#8, 0x04#8, 0xF6#8, 0xFF#8] = .instr (.divRI 4 0xFFF6#16) ∧
    decode [0x10#8, 0x01#8, 0x0B#8, 0x00#8] = .instr (.divRM 1 0x000B#16) := by decide

theorem test_decode_neg :
    decode [0x11#8, 0x03#8] = .instr (.negR 3) ∧
    decode [0x12#8, 0x00#8, 0x01#8] = .instr (.negM 0x0100#16) := by decide

theorem test_decode_bitwise :
    decode [0x13#8, 0x4F#8] = .instr (.xorRR 4 15) ∧
    decode [0x14#8, 0x02#8, 0xFF#8, 0x0F#8] = .instr (.xorRI 2 0x0FFF#16) ∧
    decode [0x15#8, 0x02#8, 0x00#8, 0x10#8] = .instr (.xorRM 2 0x1000#16) ∧
    decode [0x16#8, 0x9A#8] = .instr (.andRR 9 10) ∧
    decode [0x17#8, 0x03#8, 0x0F#8, 0x00#8] = .instr (.andRI 3 15#16) ∧
    decode [0x18#8, 0x0B#8, 0xFE#8, 0xCA#8] = .instr (.andRM 11 0xCAFE#16) ∧
    decode [0x19#8, 0xE1#8] = .instr (.orRR 14 1) ∧
    decode [0x1A#8, 0x00#8, 0x0F#8, 0x00#8] = .instr (.orRI 0 15#16) ∧
    decode [0x1B#8, 0x05#8, 0xFF#8, 0xFE#8] = .instr (.orRM 5 0xFEFF#16) ∧
    decode [0x1C#8, 0x07#8] = .instr (.notR 7) ∧
    decode [0x1D#8, 0x34#8, 0x12#8] = .instr (.notM 0x1234#16) := by decide

theorem test_decode_shift :
    decode [0x1E#8, 0x26#8] = .instr (.shrRR 2 6) ∧
    decode [0x1F#8, 0x0C#8, 0x0F#8, 0x00#8] = .instr (.shrRI 12 15#16) ∧
    decode [0x20#8, 0x51#8] = .instr (.shlRR 5 1) ∧
    decode [0x21#8, 0x0C#8, 0x04#8, 0x00#8] = .instr (.shlRI 12 4#16) := by decide

theorem test_decode_compare :
    decode [0x22#8, 0x10#8] = .instr (.cmpRR 1 0) ∧
    decode [0x23#8, 0x01#8, 0x00#8, 0x80#8] = .instr (.cmpRI 1 0x8000#16) ∧
    decode [0x24#8, 0x06#8, 0x00#8, 0x01#8] = .instr (.cmpRM 6 0x0100#16) := by decide

theorem test_decode_branch :
    decode [0x25#8, 0x40#8, 0x01#8] = .instr (.be 0x0140#16) ∧
    decode [0x26#8, 0x41#8, 0x02#8] = .instr (.bne 0x0241#16) ∧
    decode [0x27#8, 0x42#8, 0x03#8] = .instr (.bg 0x0342#16) ∧
    decode [0x28#8, 0x43#8, 0x04#8] = .instr (.bge 0x0443#16) ∧
    decode [0x29#8, 0x44#8, 0x05#8] = .instr (.bl 0x0544#16) ∧
    decode [0x2A#8, 0x45#8, 0x06#8] = .instr (.ble 0x0645#16) ∧
    decode [0x2B#8, 0x46#8, 0x07#8] = .instr (.bc 0x0746#16) ∧
    decode [0x2C#8, 0x00#8, 0x10#8] = .instr (.jmp 0x1000#16) := by decide

theorem test_decode_system :
    decode [0x2D#8] = .instr .puts ∧
    decode [0x2E#8, 0x00#8, 0x00#8] = .instr .getc ∧
    decode [0x2F#8, 0x08#8, 0xFF#8] = .instr (.call 0xFF08#16) ∧
    decode [0x30#8] = .instr .ret ∧
    decode [0x31#8, 0x00#8] = .instr .halt := by decide

/-- The spare high nibble of a register byte carries nothing: vectors M4, M6, A34 and C10. -/
theorem test_decode_ignores_a_spare_nibble :
    decode [0x02#8, 0xF2#8, 0x00#8, 0x80#8] = .instr (.cpRI 2 0x8000#16) ∧
    decode [0x03#8, 0x00#8, 0x00#8, 0x1A#8] = .instr (.cpMR 0#16 10) ∧
    decode [0x11#8, 0xF1#8] = .instr (.negR 1) ∧
    decode [0x24#8, 0xF0#8, 0x00#8, 0x01#8] = .instr (.cmpRM 0 0x0100#16) := by decide

/-- R62: the bytes next to the two ends of the opcode range; R66: the invalid byte is named though it is
the last one. -/
theorem test_decode_rejects_invalid_opcodes :
    decode [0x00#8, 0x31#8] = .unknownOpcode 0x00#8 ∧ decode [0x32#8] = .unknownOpcode 0x32#8 ∧
    decode [0xFF#8] = .unknownOpcode 0xFF#8 := by decide

/-- R72: vectors T1, T2, T5 and T12. -/
theorem test_decode_of_truncated_bytes :
    decode [0x02#8, 0x00#8, 0xD0#8] = .outOfBounds ∧ decode [0x05#8] = .outOfBounds ∧
    decode [] = .outOfBounds ∧ decode [0x0F#8, 0x00#8, 0x00#8] = .outOfBounds := by decide

/-- R64: the encoder writes the spare nibble 0. -/
theorem test_encode_words :
    encode (.cpRI 2 0x8000#16) = [0x02#8, 0x02#8, 0x00#8, 0x80#8] ∧
    encode (.cpMR 0x1234#16 14) = [0x03#8, 0x34#8, 0x12#8, 0x0E#8] ∧
    encode (.subRR 1 12) = [0x08#8, 0x1C#8] ∧ encode (.call 0xFF08#16) = [0x2F#8, 0x08#8, 0xFF#8] := by
  decide

/-- Byte k of an instruction is bits 8k+7 to 8k of its table word. -/
theorem test_table_words_decode :
    decodeTableWord 16 0x3101 = some (.cpRR 3 1) ∧
    decodeTableWord 32 0x0E123403 = some (.cpMR 0x1234#16 14) ∧ decodeTableWord 8 0x31 = some .halt ∧
    decodeTableWord 8 0x2F = some (.call 0#16) ∧ decodeTableWord 8 0x32 = none := by decide

theorem test_fetch_word_runs_next :
    seen (fun t => (t.readReg 5, t.pc)) (step (State.reset.withFetchWord 32 0xABCD0502)) =
      some (0xABCD#16, 4#17) := by decide

/-! ## One step of each instruction -/

/-- M1 -/
theorem test_cp_rr :
    seen (fun t => (t.readReg 3, t.readReg 1, t.pc))
      (step (cpu [0x01#8, 0x31#8] [(0x0001#16, 0x1234#16), (0x0003#16, 0xAAAA#16)] [])) =
      some (0x1234#16, 0x1234#16, 2#17) := by decide

/-- M3 -/
theorem test_cp_ri :
    seen (fun t => (t.readReg 15, t.pc))
      (step (cpu [0x02#8, 0x0F#8, 0xFF#8, 0xFF#8] [] [])) =
      some (0xFFFF#16, 4#17) := by decide

/-- M5 -/
theorem test_cp_mr :
    seen (fun t => (t.readCell 0xFFFF#16, t.mem, t.pc))
      (step (cpu [0x03#8, 0xFF#8, 0xFF#8, 0x07#8] [(0x0007#16, 0xBEEF#16)] [])) =
      some (0xBEEF#16, [(65535, 0xBEEF#16)], 4#17) := by decide

/-- R88: storing what an unlisted cell reads as removes the entry. -/
theorem test_cp_mr_of_zero_keeps_the_form :
    seen (fun t => t.mem)
      (step (cpu [0x03#8, 0x05#8, 0x00#8, 0x07#8] [] [(0x0004#16, 0x0001#16), (0x0005#16, 0x0002#16)])) =
      some [(4, 1#16)] := by decide

/-- M7 -/
theorem test_cp_rm :
    seen (fun t => (t.readReg 3, t.pc))
      (step (cpu [0x04#8, 0x03#8, 0xFF#8, 0xFF#8] [] [(0xFFFF#16, 0x7FFF#16)])) =
      some (0x7FFF#16, 4#17) := by decide

/-- M8 -/
theorem test_cp_rm_of_an_unwritten_cell :
    seen (fun t => (t.readReg 0, t.pc))
      (step (cpu [0x04#8, 0x00#8, 0x34#8, 0x12#8] [(0x0000#16, 0x5555#16)] [])) =
      some (0x0000#16, 4#17) := by decide

/-- A1, the source's scenario 2 -/
theorem test_add_rr :
    seen (fun t => (t.readReg 0, t.carry, t.pc))
      (step (cpu [0x05#8, 0x00#8] [(0x0000#16, 0x7FFF#16)] [])) =
      some (0xFFFE#16, true, 2#17) := by decide

/-- A2 -/
theorem test_add_rr_signed_overflow_is_not_carry_out :
    seen (fun t => (t.readReg 0, t.carry))
      (step (cpu [0x05#8, 0x01#8] [(0x0000#16, 0xFFFF#16), (0x0001#16, 0xFFFF#16)] [])) =
      some (0xFFFE#16, false) := by decide

/-- A5 -/
theorem test_add_ri :
    seen (fun t => (t.readReg 0, t.carry, t.pc))
      (step 
        { cpu [0x06#8, 0x00#8, 0x00#8, 0x00#8] [(0x0000#16, 0x1234#16)] []
          with carry := true }) =
      some (0x1234#16, false, 4#17) := by decide

/-- A6 -/
theorem test_add_rm :
    seen (fun t => (t.readReg 1, t.carry, t.readCell 0x0300#16, t.pc))
      (step (cpu [0x07#8, 0x01#8, 0x00#8, 0x03#8] [(0x0001#16, 0x0005#16)] [(0x0300#16, 0xFFFD#16)])) =
      some (0x0002#16, false, 0xFFFD#16, 4#17) := by decide

/-- A7 -/
theorem test_sub_rr :
    seen (fun t => (t.readReg 0, t.carry))
      (step (cpu [0x08#8, 0x01#8] [(0x0001#16, 0x8000#16)] [])) =
      some (0x8000#16, true) := by decide

/-- A10 -/
theorem test_sub_ri :
    seen (fun t => (t.readReg 1, t.carry, t.pc))
      (step (cpu [0x09#8, 0x01#8, 0xFF#8, 0xFF#8] [(0x0001#16, 0x7FFF#16)] [])) =
      some (0x8000#16, true, 4#17) := by decide

/-- A11 -/
theorem test_sub_rm :
    seen (fun t => (t.readReg 0, t.carry, t.pc))
      (step (cpu [0x0A#8, 0x00#8, 0x10#8, 0x00#8] [(0x0000#16, 0xFFFF#16)] [(0x0010#16, 0x7FFF#16)])) =
      some (0x8000#16, false, 4#17) := by decide

/-- A13 -/
theorem test_mul_rr :
    seen (fun t => (t.readReg 0, t.carry))
      (step (cpu [0x0B#8, 0x01#8] [(0x0000#16, 0xFFFF#16), (0x0001#16, 0xFFFF#16)] [])) =
      some (0x0001#16, false) := by decide

/-- A16 -/
theorem test_mul_ri :
    seen (fun t => (t.readReg 0, t.carry, t.pc))
      (step (cpu [0x0C#8, 0x00#8, 0x2C#8, 0x01#8] [(0x0000#16, 0xFED4#16)] [])) =
      some (0xA070#16, true, 4#17) := by decide

/-- A18 -/
theorem test_mul_rm :
    seen (fun t => (t.readReg 2, t.carry, t.pc))
      (step (cpu [0x0D#8, 0x02#8, 0x00#8, 0x01#8] [(0x0002#16, 0x7FFF#16)] [(0x0100#16, 0x7FFF#16)])) =
      some (0x0001#16, true, 4#17) := by decide

/-- A20 -/
theorem test_div_rr :
    seen (fun t => (t.readReg 0, t.carry, t.pc))
      (step (cpu [0x0E#8, 0x01#8] [(0x0000#16, 0xFFF9#16), (0x0001#16, 0x0002#16)] [])) =
      some (0xFFFD#16, false, 2#17) := by decide

/-- A22 -/
theorem test_div_rr_minimum_by_minus_one :
    seen (fun t => (t.readReg 0, t.carry, t.status))
      (step (cpu [0x0E#8, 0x01#8] [(0x0000#16, 0x8000#16), (0x0001#16, 0xFFFF#16)] [])) =
      some (0x8000#16, true, Status.running) := by decide

/-- A30 -/
theorem test_div_ri :
    seen (fun t => (t.readReg 0, t.carry, t.pc))
      (step (cpu [0x0F#8, 0x00#8, 0x02#8, 0x00#8] [(0x0000#16, 0xFFFF#16)] [])) =
      some (0x0000#16, false, 4#17) := by decide

/-- E3, the source's scenario 3 -/
theorem test_div_ri_by_zero :
    seen (fun t => (latches t, t.readReg 0, t.carry))
      (step 
        { cpu [0x0F#8, 0x00#8, 0x00#8, 0x00#8] [(0x0000#16, 0x0007#16)] []
          with carry := true }) =
      some ((Status.faulted, 1#3, 0#16, 0#17), 0x0007#16, true) := by decide

/-- A28 -/
theorem test_div_rm :
    seen (fun t => (t.readReg 0, t.carry, t.pc))
      (step (cpu [0x10#8, 0x00#8, 0x00#8, 0x02#8] [(0x0000#16, 0x0064#16)] [(0x0200#16, 0xFFF6#16)])) =
      some (0xFFF6#16, false, 4#17) := by decide

/-- A29 -/
theorem test_div_rm_by_an_unwritten_cell :
    seen (fun t => (latches t, t.readReg 0))
      (step (cpu [0x10#8, 0x00#8, 0x00#8, 0x02#8] [(0x0000#16, 0x0064#16)] [])) =
      some ((Status.faulted, 1#3, 0#16, 0#17), 0x0064#16) := by decide

/-- A32 -/
theorem test_neg_r :
    seen (fun t => (t.readReg 0, t.carry, t.pc))
      (step (cpu [0x11#8, 0x00#8] [(0x0000#16, 0x8000#16)] [])) =
      some (0x8000#16, true, 2#17) := by decide

/-- A36 -/
theorem test_neg_m :
    seen (fun t => (t.readCell 0x0100#16, t.carry, t.readReg 0, t.pc))
      (step (cpu [0x12#8, 0x00#8, 0x01#8] [(0x0000#16, 0x1111#16)] [(0x0100#16, 0x0037#16)])) =
      some (0xFFC9#16, false, 0x1111#16, 3#17) := by decide

/-- B1 -/
theorem test_xor_rr :
    seen (fun t => (t.readReg 0, t.carry, t.pc))
      (step 
        { cpu [0x13#8, 0x01#8] [(0x0000#16, 0xFF00#16), (0x0001#16, 0x0FF0#16)] []
          with carry := true }) =
      some (0xF0F0#16, true, 2#17) := by decide

/-- B3 -/
theorem test_xor_ri :
    seen (fun t => (t.readReg 0, t.pc))
      (step (cpu [0x14#8, 0x00#8, 0xFF#8, 0xFF#8] [(0x0000#16, 0x1234#16)] [])) =
      some (0xEDCB#16, 4#17) := by decide

/-- B4 -/
theorem test_xor_rm :
    seen (fun t => (t.readReg 2, t.pc))
      (step (cpu [0x15#8, 0x02#8, 0x00#8, 0x10#8] [(0x0002#16, 0xAAAA#16)] [(0x1000#16, 0x5555#16)])) =
      some (0xFFFF#16, 4#17) := by decide

/-- B5 -/
theorem test_and_rr :
    seen (fun t => t.readReg 0)
      (step (cpu [0x16#8, 0x01#8] [(0x0000#16, 0xFF00#16), (0x0001#16, 0x0FF0#16)] [])) =
      some 0x0F00#16 := by decide

/-- B6 -/
theorem test_and_ri :
    seen (fun t => (t.readReg 3, t.pc))
      (step (cpu [0x17#8, 0x03#8, 0x0F#8, 0x00#8] [(0x0003#16, 0xABCD#16)] [])) =
      some (0x000D#16, 4#17) := by decide

/-- B7 -/
theorem test_and_rm :
    seen (fun t => (t.readReg 0, t.pc))
      (step (cpu [0x18#8, 0x00#8, 0x00#8, 0x10#8] [(0x0000#16, 0xFFFF#16)] [])) =
      some (0x0000#16, 4#17) := by decide

/-- B8 -/
theorem test_or_rr :
    seen (fun t => t.readReg 0)
      (step (cpu [0x19#8, 0x01#8] [(0x0000#16, 0xFF00#16), (0x0001#16, 0x0FF0#16)] [])) =
      some 0xFFF0#16 := by decide

/-- B9 -/
theorem test_or_ri :
    seen (fun t => (t.readReg 0, t.pc))
      (step (cpu [0x1A#8, 0x00#8, 0x0F#8, 0x00#8] [(0x0000#16, 0x0010#16)] [])) =
      some (0x001F#16, 4#17) := by decide

/-- B10 -/
theorem test_or_rm :
    seen (fun t => (t.readReg 5, t.pc))
      (step (cpu [0x1B#8, 0x05#8, 0xFF#8, 0xFF#8] [(0x0005#16, 0x8000#16)] [(0xFFFF#16, 0x0001#16)])) =
      some (0x8001#16, 4#17) := by decide

/-- B11 -/
theorem test_not_r :
    seen (fun t => (t.readReg 0, t.carry, t.pc))
      (step 
        { cpu [0x1C#8, 0x00#8] [(0x0000#16, 0x001F#16)] []
          with carry := true }) =
      some (0xFFE0#16, true, 2#17) := by decide

/-- B13 -/
theorem test_not_m :
    seen (fun t => (t.readCell 0x1234#16, t.pc))
      (step (cpu [0x1D#8, 0x34#8, 0x12#8] [] [(0x1234#16, 0x00FF#16)])) =
      some (0xFF00#16, 3#17) := by decide

/-- S1 -/
theorem test_shr_rr :
    seen (fun t => (t.readReg 0, t.pc))
      (step (cpu [0x1E#8, 0x01#8] [(0x0000#16, 0x8000#16), (0x0001#16, 0x000F#16)] [])) =
      some (0x0001#16, 2#17) := by decide

/-- S6 -/
theorem test_shr_rr_by_its_own_value :
    seen (fun t => (latches t, t.readReg 2))
      (step (cpu [0x1E#8, 0x22#8] [(0x0002#16, 0x0040#16)] [])) =
      some ((Status.faulted, 6#3, 0x0040#16, 0#17), 0x0040#16) := by decide

/-- S7 -/
theorem test_shr_ri :
    seen (fun t => (t.readReg 0, t.carry, t.pc))
      (step 
        { cpu [0x1F#8, 0x00#8, 0x01#8, 0x00#8] [(0x0000#16, 0x8000#16)] []
          with carry := true }) =
      some (0x4000#16, true, 4#17) := by decide

/-- S8 -/
theorem test_shr_ri_by_16 :
    seen (fun t => (latches t, t.readReg 0))
      (step (cpu [0x1F#8, 0x00#8, 0x10#8, 0x00#8] [(0x0000#16, 0x8000#16)] [])) =
      some ((Status.faulted, 6#3, 0x0010#16, 0#17), 0x8000#16) := by decide

/-- S12 -/
theorem test_shl_rr :
    seen (fun t => t.readReg 0)
      (step (cpu [0x20#8, 0x01#8] [(0x0000#16, 0xFFFF#16), (0x0001#16, 0x0008#16)] [])) =
      some 0xFF00#16 := by decide

/-- S13 -/
theorem test_shl_ri :
    seen (fun t => (t.readReg 0, t.pc))
      (step (cpu [0x21#8, 0x00#8, 0x04#8, 0x00#8] [(0x0000#16, 0x0FFF#16)] [])) =
      some (0xFFF0#16, 4#17) := by decide

/-- S15 -/
theorem test_shl_ri_is_not_masked :
    seen (fun t => (latches t, t.readReg 0))
      (step (cpu [0x21#8, 0x00#8, 0x00#8, 0x80#8] [(0x0000#16, 0x0001#16)] [])) =
      some ((Status.faulted, 6#3, 0x8000#16, 0#17), 0x0001#16) := by decide

/-- C2 -/
theorem test_cmp_rr :
    seen (fun t => (t.cmp, t.carry, t.pc))
      (step 
        { cpu [0x22#8, 0x01#8] [(0x0000#16, 0x8000#16), (0x0001#16, 0x7FFF#16)] []
          with carry := true }) =
      some (CmpState.lessThan, true, 2#17) := by decide

/-- C3 -/
theorem test_cmp_rr_operand_order :
    seen (fun t => t.cmp)
      (step (cpu [0x22#8, 0x10#8] [(0x0000#16, 0x8000#16), (0x0001#16, 0x7FFF#16)] [])) =
      some CmpState.greaterThan := by decide

/-- C7 -/
theorem test_cmp_ri :
    seen (fun t => (t.cmp, t.pc))
      (step (cpu [0x23#8, 0x01#8, 0xFF#8, 0xFF#8] [] [])) =
      some (CmpState.greaterThan, 4#17) := by decide

/-- C8 -/
theorem test_cmp_rm :
    seen (fun t => (t.cmp, t.pc))
      (step (cpu [0x24#8, 0x00#8, 0x00#8, 0x01#8] [(0x0000#16, 0x0037#16)] [(0x0100#16, 0x0037#16)])) =
      some (CmpState.equal, 4#17) := by decide

/-- Where one branch goes from offset 16 for each comparison state, in the order of the table of section
2.5. -/
def branchRow (i : Instr) : List (Option PcVal) :=
  [CmpState.none, .lessThan, .equal, .greaterThan].map fun c =>
    seen State.pc (exec i { State.reset with pc := 0x10#17, cmp := c })

/-- Section 2.5, the row of `be`. -/
theorem test_be :
    branchRow (.be 0x0040#16) =
      [some 0x13#17, some 0x13#17, some 0x40#17, some 0x13#17] := by decide

/-- Section 2.5, the row of `bne`. -/
theorem test_bne :
    branchRow (.bne 0x0040#16) =
      [some 0x13#17, some 0x40#17, some 0x13#17, some 0x40#17] := by decide

/-- Section 2.5, the row of `bg`. -/
theorem test_bg :
    branchRow (.bg 0x0040#16) =
      [some 0x13#17, some 0x13#17, some 0x13#17, some 0x40#17] := by decide

/-- Section 2.5, the row of `bge`. -/
theorem test_bge :
    branchRow (.bge 0x0040#16) =
      [some 0x13#17, some 0x13#17, some 0x40#17, some 0x40#17] := by decide

/-- Section 2.5, the row of `bl`. -/
theorem test_bl :
    branchRow (.bl 0x0040#16) =
      [some 0x13#17, some 0x40#17, some 0x13#17, some 0x13#17] := by decide

/-- Section 2.5, the row of `ble`. -/
theorem test_ble :
    branchRow (.ble 0x0040#16) =
      [some 0x13#17, some 0x40#17, some 0x40#17, some 0x13#17] := by decide

/-- J1 and J2 -/
theorem test_bc :
    seen State.pc (exec (.bc 0x0040#16) { State.reset with pc := 0x10#17 }) = some 0x13#17 ∧
    seen (fun t => (t.pc, t.carry))
      (exec (.bc 0x0040#16) { State.reset with pc := 0x10#17, carry := true }) =
      some (0x40#17, true) := by decide

/-- J3 -/
theorem test_jmp :
    seen (fun t => (t.pc, t.status)) (exec (.jmp 0xFFFF#16) State.reset) =
      some (0xFFFF#17, Status.running) := by decide

/-- K1 -/
theorem test_call :
    seen (fun t => (t.frames, t.pc, t.readReg 0))
      (exec (.call 0x0010#16) { cpu [] [(0#16, 7#16), (1#16, 3#16)] [] with pc := 8#17 }) =
      some ([⟨(cpu [] [(0#16, 7#16), (1#16, 3#16)] []).regs, 0x0B#17⟩], 0x10#17, 7#16) := by decide

/-- K6: the return address past a full image needs 17 bits. -/
theorem test_call_return_address_does_not_wrap :
    seen (fun t => (t.frames.map fun f => f.ret.toNat, t.pc))
      (exec (.call 0x0000#16) { State.reset with pc := 0xFFFD#17 }) =
      some ([65536], 0#17) := by decide

/-- A machine whose one frame is that of K4. -/
def inRoutine : State :=
  { cpu [] [(0#16, 0x15#16), (1#16, 0x63#16)] [] with
    frames := [⟨(cpu [] [(0#16, 7#16), (1#16, 3#16)] []).regs, 0x0B#17⟩], carry := true, cmp := .equal }

/-- K4 -/
theorem test_ret :
    seen (fun t => (t.readReg 0, t.readReg 1, t.pc, t.depth, t.carry, t.cmp)) (exec .ret inRoutine) =
      some (7#16, 3#16, 0x0B#17, 0, true, CmpState.equal) := by decide

/-- K5 -/
theorem test_ret_with_no_frame :
    seen latches (step (cpu [0x30#8] [] [])) = some (.faulted, 4#3, 0#16, 0#17) := by decide

/-- Y1 and Y2 -/
theorem test_halt :
    seen (fun t => (t.status, t.pc)) (step (cpu [0x31#8] [] [])) = some (.halted, 1#17) ∧
    seen (fun t => t) (step { State.reset with status := .halted, pc := 1#17 }) =
      some { State.reset with status := .halted, pc := 1#17 } := by decide

/-- Y3 -/
theorem test_puts :
    seen latches (step (cpu [0x2D#8] [] [])) = some (.faulted, 7#3, 0x2D#16, 0#17) := by decide

/-- Y4 -/
theorem test_getc :
    seen latches (step (cpu [0x2E#8, 0x00#8, 0x00#8] [] [])) = some (.faulted, 7#3, 0x2E#16, 0#17) := by
  decide

/-! ## Fetch, bounds and reset -/

/-- T1, T5 and T12: the bounds fault comes before the fault of the instruction. -/
theorem test_bytes_past_the_image :
    seen latches (step (cpu [0x02#8, 0x00#8, 0xD0#8] [] [])) = some (.faulted, 5#3, 0#16, 0#17) ∧
    seen latches (step State.reset) = some (.faulted, 5#3, 0#16, 0#17) ∧
    seen latches (step (cpu [0x0F#8, 0x00#8, 0x00#8] [] [])) = some (.faulted, 5#3, 0#16, 0#17) := by
  decide

/-- T3, T8 and T13 -/
theorem test_unknown_opcode :
    seen latches (step (cpu [0xFF#8] [] [])) = some (.faulted, 2#3, 0xFF#16, 0#17) ∧
    seen latches (step (cpu [0x00#8] [] [])) = some (.faulted, 2#3, 0#16, 0#17) ∧
    seen latches (step { cpu [0x01#8, 0x00#8, 0xFF#8] [] [] with pc := 2#17 }) =
      some (.faulted, 2#3, 0xFF#16, 2#17) := by decide

/-- R194: reset is the only way out of `Faulted`, and it leaves the code image. -/
theorem test_reset_input :
    ({ cpu [0x00#8] [(3#16, 9#16)] [(4#16, 5#16)] with status := .faulted, errCode := 2#3 }).assertReset =
      State.boot [0x00#8] := by decide

/-- R190: a step request made together with reset does not execute; alone it does; with neither input the
machine holds. -/
theorem test_reset_goes_before_a_step_request :
    (let s := { cpu [0x1C#8, 0x05#8] [(3#16, 9#16)] [] with carry := true }
     [seen (fun t => t) (respond ⟨true, true⟩ s), seen (fun t => t) (respond ⟨false, false⟩ s)] =
      [some (State.boot [0x1C#8, 0x05#8]), some s] ∧
     seen (fun t => (t.readReg 5, t.pc)) (respond ⟨false, true⟩ s) = some (0xFFFF#16, 2#17)) := by
  decide

/-- R190: reset is the way out of `Halted`, and the outputs show it. -/
theorem test_outputs_after_halt_and_reset :
    seen State.outputs (respondAll [⟨false, true⟩, ⟨false, true⟩] (cpu [0x31#8] [] [])) =
      some ⟨.halted, 0#3, 0#16, 1#17⟩ ∧
    seen State.outputs (respondAll [⟨false, true⟩, ⟨true, true⟩] (cpu [0x31#8] [] [])) =
      some ⟨.running, 0#3, 0#16, 0#17⟩ := by decide

/-! ## States that meet the hypotheses of the obligations -/

/-- A running machine with a register, a cell and a frame that are not zero. -/
def busy (image : List Byte) : State :=
  { cpu image [(0#16, 0x8000#16), (1#16, 0xFFFF#16), (2#16, 15#16), (3#16, 16#16)] [(7#16, 0xFFFF#16)]
    with frames := [⟨State.reset.regs, 3#17⟩] }

/-- A machine with this many frames. -/
def deep (n : Nat) : State := { busy [] with frames := List.replicate n ⟨State.reset.regs, 3#17⟩ }

theorem deep_depth (n : Nat) : (deep n).depth = n := by simp [deep, State.depth]

theorem witness_MulResultIsLowHalfOfUnsignedProduct :
    (∃ t, exec (.mulRR 0 1) (busy []) = .next t) ∧ (∃ t, exec (.mulRI 0 3#16) (busy []) = .next t) ∧
    (∃ t, exec (.mulRM 0 7#16) (busy []) = .next t) := ⟨⟨_, rfl⟩, ⟨_, rfl⟩, ⟨_, rfl⟩⟩

/-- Divisors -1 and 1, at the edges of what is not zero; also the third clauses of `DivByZeroFaults…`. -/
theorem witness_DivWritesQuotientRoundedTowardZero :
    (busy []).readReg 1 ≠ 0#16 ∧ (1#16 : Word) ≠ 0#16 ∧ (busy []).readCell 7#16 ≠ 0#16 := by decide

theorem witness_DivOverflowsOnlyForMinimumByMinusOne :
    ((busy []).readReg 1 ≠ 0#16 ∧ seen State.carry (exec (.divRR 0 1) (busy [])) = some true) ∧
    ((0xFFFE#16 : Word) ≠ 0#16 ∧
      seen State.carry (exec (.divRI 0 0xFFFE#16) (busy [])) = some false) ∧
    ((busy []).readCell 7#16 ≠ 0#16 ∧
      seen State.carry (exec (.divRM 0 7#16) (busy [])) = some true) := by decide

/-- Zero divisors beside the others of `witness_DivWritesQuotientRoundedTowardZero`. -/
theorem witness_DivByZeroFaultsWithNoEffect :
    (busy []).readReg 4 = 0#16 ∧ (busy []).readReg 1 ≠ 0#16 ∧ (busy []).readCell 8#16 = 0#16 ∧
    (busy []).readCell 7#16 ≠ 0#16 := by decide

theorem witness_BitwiseWorksBitByBitAndLeavesFlags :
    (∃ t, exec (.shrRR 0 2) (busy []) = .next t) ∧ (∃ t, exec (.shrRI 0 16#16) (busy []) = .next t) ∧
    (∃ t, exec (.shlRR 0 3) (busy []) = .next t) ∧ (∃ t, exec (.shlRI 0 0#16) (busy []) = .next t) :=
  ⟨⟨_, rfl⟩, ⟨_, rfl⟩, ⟨_, rfl⟩, ⟨_, rfl⟩⟩

/-- Amounts 0 and 15. -/
theorem witness_ShiftsInRangeAreLogical :
    ((busy []).readReg 4).toNat ≤ 15 ∧ ((busy []).readReg 2).toNat ≤ 15 ∧
    (0#16 : Word).toNat ≤ 15 ∧ (15#16 : Word).toNat ≤ 15 := by decide

/-- Amounts 16, -1 and -32768. -/
theorem witness_ShiftsOutOfRangeFaultAndAreNotMasked :
    15 < ((busy []).readReg 3).toInt ∧ ((busy []).readReg 1).toInt < 0 ∧
    ((busy []).readReg 0).toInt < 0 ∧ 15 < (16#16 : Word).toInt ∧ (0xFFFF#16 : Word).toInt < 0 := by
  decide

theorem witness_NoBranchIsTakenBeforeTheFirstCompare :
    (busy []).cmp = .none ∧
    Instr.bne 9#16 ∈ [Instr.be 9#16, .bne 9#16, .bg 9#16, .bge 9#16, .bl 9#16, .ble 9#16] := by decide

/-- The target is the first offset past a three-byte image. -/
theorem witness_BranchOnCarryAndJumpGoToTheirTarget :
    ∃ t, (busy [0x2C#8, 0x03#8, 0x00#8]).status = .running ∧
      (busy [0x2C#8, 0x03#8, 0x00#8]).code.length ≤ (3#16 : Word).toNat ∧
      (busy [0x2C#8, 0x03#8, 0x00#8]).code.length ≤ 65536 ∧
      exec (.jmp 3#16) (busy [0x2C#8, 0x03#8, 0x00#8]) = .next t :=
  ⟨_, rfl, by decide, by decide, rfl⟩

/-- The first frame and the thousandth, the largest `pc` of a whole `call`, the full stack, and a target
just past the image. -/
theorem witness_CallPushesAFrameAndGoesToItsTarget :
    State.reset.depth < 1000 ∧ (deep 999).depth < 1000 ∧
    ({ State.reset with pc := 65533#17 } : State).pc.toNat ≤ 65533 ∧ (deep 1000).depth = 1000 ∧
    ((busy [0x2F#8, 0x03#8, 0x00#8]).depth < 1000 ∧
      (busy [0x2F#8, 0x03#8, 0x00#8]).status = .running ∧
      (busy [0x2F#8, 0x03#8, 0x00#8]).code.length ≤ (3#16 : Word).toNat ∧
      (busy [0x2F#8, 0x03#8, 0x00#8]).code.length ≤ 65536) :=
  ⟨by decide, by rw [deep_depth]; decide, by decide, deep_depth 1000, by decide⟩

theorem witness_CallOnAFullStackFaults : (deep 1000).depth = 1000 := deep_depth 1000

theorem witness_ReturnRestoresTheMostRecentFrame :
    inRoutine.frames = ⟨(cpu [] [(0#16, 7#16), (1#16, 3#16)] []).regs, 0x0B#17⟩ :: [] ∧
    State.reset.depth = 0 := by decide

theorem witness_ReturnOnAnEmptyStackFaults : State.reset.depth = 0 := rfl

/-- Between the `call` and the `ret`, a register, a cell and both flags are written. -/
theorem witness_ReturnUndoesTheCallWhateverCameBetween :
    ∃ t, (busy []).depth < 1000 ∧ exec (.call 9#16) (busy []) = .next t ∧
      ({ ((t.writeReg 0 1#16).writeCell 2#16 3#16) with carry := true, cmp := .equal } : State).frames =
        t.frames :=
  ⟨_, by decide, rfl, rfl⟩

/-- A thousand calls from an empty stack, and one more from a stack of 999. -/
theorem witness_NestedCallsThenReturnsRestoreTheMachine :
    ((5#16 :: List.replicate 999 (5#16 : Word)) ≠ [] ∧
      State.reset.depth + (5#16 :: List.replicate 999 (5#16 : Word)).length ≤ 1000) ∧
    ([5#16] ≠ ([] : List Word) ∧ (deep 999).depth + [(5#16 : Word)].length ≤ 1000) := by
  refine ⟨⟨List.cons_ne_nil _ _, ?_⟩, List.cons_ne_nil _ _, ?_⟩
  · rw [List.length_cons, List.length_replicate]; decide
  · rw [deep_depth]; decide

/-- The spare nibble of forms RI and MR, the byte that has none in form RR, and the last byte of an
immediate. -/
theorem witness_DecodedBytesAreTheEncodingButForASpareNibble :
    (decode [0x02#8, 0xF2#8, 0x00#8, 0x80#8] = .instr (.cpRI 2 0x8000#16) ∧
      spareNibbleAt (.cpRI 2 0x8000#16) = some 1 ∧
      ([0x02#8, 0xF2#8, 0x00#8, 0x80#8] : List Byte)[1]? = some 0xF2#8 ∧
      (encode (.cpRI 2 0x8000#16))[1]? = some 0x02#8 ∧
      ([0x02#8, 0xF2#8, 0x00#8, 0x80#8] : List Byte)[3]? = some 0x80#8 ∧
      (encode (.cpRI 2 0x8000#16))[3]? = some 0x80#8) ∧
    (decode [0x03#8, 0xFF#8, 0xFE#8, 0x17#8] = .instr (.cpMR 0xFEFF#16 7) ∧
      spareNibbleAt (.cpMR 0xFEFF#16 7) = some 3 ∧
      ([0x03#8, 0xFF#8, 0xFE#8, 0x17#8] : List Byte)[3]? = some 0x17#8 ∧
      (encode (.cpMR 0xFEFF#16 7))[3]? = some 0x07#8) ∧
    (decode [0x01#8, 0x31#8] = .instr (.cpRR 3 1) ∧ spareNibbleAt (.cpRR 3 1) = none ∧
      ([0x01#8, 0x31#8] : List Byte)[1]? = some 0x31#8 ∧ (encode (.cpRR 3 1))[1]? = some 0x31#8) := by
  decide

theorem witness_SpareNibbleIsIgnored :
    (0xF2#8 : Byte).extractLsb' 0 4 = (0x02#8 : Byte).extractLsb' 0 4 ∧
    0x06#8 ∈ [0x02#8, 0x04#8, 0x06#8] := by decide

theorem witness_StepRunsTheDecodedInstruction :
    (busy [0x05#8, 0x01#8]).status = .running ∧ (busy [0x05#8, 0x01#8]).code.length ≤ 65536 ∧
    decode ((busy [0x05#8, 0x01#8]).code.drop (busy [0x05#8, 0x01#8]).pc.toNat) =
      .instr (.addRR 0 1) := by decide

/-- The last byte of an image, and both ends of the invalid range. -/
theorem witness_InvalidOpcodeAtPcFaults :
    FetchesFrom { cpu [0x01#8, 0x00#8, 0xFF#8] [] [] with pc := 2#17 } (0xFF#8 :: []) ∧
    FetchesFrom (busy [0x00#8]) (0x00#8 :: []) ∧ FetchesFrom (busy [0x32#8, 0x31#8]) [0x32#8, 0x31#8] ∧
    0x31#8 < (0x32#8 : Byte) ∧ 0x31#8 < (0xFF#8 : Byte) :=
  ⟨⟨rfl, by decide, by decide⟩, ⟨rfl, by decide, by decide⟩, ⟨rfl, by decide, by decide⟩, by decide,
    by decide⟩

/-- The empty image, the end of an image, and instructions that lack their last byte. -/
theorem witness_BytesPastTheImageFaultFirst :
    (State.reset.status = .running ∧ State.reset.code.length ≤ 65536 ∧
      State.reset.code.length ≤ State.reset.pc.toNat) ∧
    (FetchesFrom (busy [0x0F#8, 0x00#8, 0x00#8]) (0x0F#8 :: [0x00#8, 0x00#8]) ∧
      decode (0x0F#8 :: List.replicate 3 0#8) = .instr (.divRI 0 0#16) ∧
      instrLength (.divRI 0 0#16) = some 4 ∧ [0x00#8, 0x00#8].length + 1 < 4) ∧
    (FetchesFrom (busy [0x05#8]) (0x05#8 :: []) ∧
      decode (0x05#8 :: List.replicate 3 0#8) = .instr (.addRR 0 0) ∧
      instrLength (.addRR 0 0) = some 2 ∧ ([] : List Byte).length + 1 < 2) :=
  ⟨by decide, ⟨⟨rfl, by decide, by decide⟩, by decide⟩, ⟨rfl, by decide, by decide⟩, by decide⟩

/-- The longest image of the domain, and one byte more. -/
theorem witness_EveryStepInTheDomainAnswersANextState :
    (State.boot (halts 65536)).code.length ≤ 65536 ∧
    (State.boot (halts 65537)).status = .running ∧
    65536 < (State.boot (halts 65537)).code.length :=
  ⟨Nat.le_of_eq (halts_length 65536), rfl, Nat.le_of_eq (halts_length 65537).symm⟩

theorem witness_EndedRunsNeverChange :
    Ended { busy [0x05#8, 0x01#8] with status := .halted } ∧
    Ended { busy [0x05#8, 0x01#8] with status := .faulted } := by
  simp [Ended]

theorem witness_FaultingStepsAreAtomic :
    ∃ t, (busy [0x0E#8, 0x04#8]).status = .running ∧ step (busy [0x0E#8, 0x04#8]) = .next t ∧
      t.status = .faulted := ⟨_, rfl, rfl, rfl⟩

theorem witness_OnlyHaltEndsARunInSuccess :
    ∃ t, (busy [0x31#8]).status = .running ∧ (busy [0x31#8]).code.length ≤ 65536 ∧
      step (busy [0x31#8]) = .next t ∧ t.status = .halted := ⟨_, rfl, by decide, rfl, rfl⟩

/-- An instruction at `pc` that a step of this machine completes. -/
def completes (s : State) (i : Instr) (n : Nat) : Bool :=
  decide (s.status = .running) && decide (s.code.length ≤ 65536) && decide (s.fetch = .instr i) &&
    decide (instrLength i = some n) && decide (seen (fun t => decide (t.status = .faulted)) (step s) = some false)

/-- A stopped machine, a step that faults, one whole instruction for each source of `pc` and each branch, and
the transfers: `jmp`, a branch taken and one not taken, `bc`, `call` and `ret`, with a target past the image
among them. -/
theorem witness_SequencerWritesPcFromItsFourSources :
    (∃ t, ({ busy [] with status := .halted } : State).status ≠ .running ∧
      step { busy [] with status := .halted } = .next t) ∧
    (∃ t, (busy [0x2D#8]).status = .running ∧ step (busy [0x2D#8]) = .next t ∧ t.status = .faulted) ∧
    (completes (busy [0x30#8]) .ret 1 && completes (busy [0x31#8]) .halt 1 &&
      completes (busy [0x1C#8, 0x00#8]) (.notR 0) 2 &&
      completes (busy [0x2C#8, 0x09#8, 0x00#8]) (.jmp 9#16) 3 &&
      completes (busy [0x2F#8, 0x09#8, 0x00#8]) (.call 9#16) 3 &&
      completes (busy [0x25#8, 0x09#8, 0x00#8]) (.be 9#16) 3 &&
      completes { busy [0x25#8, 0x09#8, 0x00#8] with cmp := .equal } (.be 9#16) 3 &&
      completes { busy [0x26#8, 0x09#8, 0x00#8] with cmp := .lessThan } (.bne 9#16) 3 &&
      completes { busy [0x27#8, 0x09#8, 0x00#8] with cmp := .greaterThan } (.bg 9#16) 3 &&
      completes { busy [0x28#8, 0x09#8, 0x00#8] with cmp := .equal } (.bge 9#16) 3 &&
      completes { busy [0x29#8, 0x09#8, 0x00#8] with cmp := .lessThan } (.bl 9#16) 3 &&
      completes { busy [0x2A#8, 0x09#8, 0x00#8] with cmp := .lessThan } (.ble 9#16) 3 &&
      completes { busy [0x2B#8, 0x09#8, 0x00#8] with carry := true } (.bc 9#16) 3) = true ∧
    (Transfers (busy []) (.jmp 9#16) ∧ Transfers (busy []) (.be 9#16) ∧ Transfers (busy []) (.bc 9#16) ∧
      Transfers (busy []) (.call 9#16) ∧ Transfers (deep 999) (.call 9#16) ∧
      Transfers (busy []) .ret ∧
      (busy [0x2C#8, 0x03#8, 0x00#8]).code.length ≤ (3#16 : Word).toNat) :=
  ⟨⟨_, by decide, rfl⟩, ⟨_, rfl, rfl, rfl⟩, by decide, .inl (by decide), .inl (by decide),
    .inl (by decide), .inr (.inl ⟨rfl, by decide⟩), .inr (.inl ⟨rfl, by rw [deep_depth]; decide⟩),
    .inr (.inr ⟨rfl, by decide⟩), by decide⟩

/-- The last byte of the longest image is an instruction, and `pc` goes to 65536. -/
theorem witness_SequencerWritesPcFromItsFourSources_at_the_last_byte :
    ({ State.boot (halts 65536) with pc := 65535#17 } : State).code.length ≤ 65536 ∧
    ({ State.boot (halts 65536) with pc := 65535#17 } : State).fetch = .instr .halt := by
  refine ⟨Nat.le_of_eq (halts_length 65536), ?_⟩
  have h : (halts 65536).drop 65535 = halts 1 := List.drop_replicate
  exact congrArg decode h

theorem witness_NoStepChangesTheCodeImage :
    ∃ t, step (busy [0x03#8, 0x00#8, 0x00#8, 0x02#8]) = .next t ∧ t.mem ≠ (busy []).mem :=
  ⟨_, rfl, by decide⟩

theorem witness_RegistersChangeOnlyByDestinationsAndReturn :
    (∃ t, step (busy [0x1C#8, 0x01#8]) = .next t ∧
      t.readReg 1 ≠ (busy [0x1C#8, 0x01#8]).readReg 1) ∧
    (∃ t, step (busy [0x30#8]) = .next t ∧ t.readReg 1 ≠ (busy [0x30#8]).readReg 1) :=
  ⟨⟨_, rfl, by decide⟩, _, rfl, by decide⟩

theorem witness_OnlyCompareWritesTheComparisonState :
    (∃ t, step (busy [0x22#8, 0x01#8]) = .next t ∧ t.cmp ≠ (busy [0x22#8, 0x01#8]).cmp) ∧
    (∃ t, step (busy [0x1C#8, 0x01#8]) = .next t ∧ t.cmp = .none) :=
  ⟨⟨_, rfl, by decide⟩, _, rfl, by decide⟩

theorem witness_OnlyArithmeticWritesTheCarryFlag :
    ∃ t, step (busy [0x05#8, 0x01#8]) = .next t ∧ t.carry ≠ (busy [0x05#8, 0x01#8]).carry :=
  ⟨_, rfl, by decide⟩

theorem witness_CellsChangeOnlyAtTheAddressAStoreNames :
    ∃ t, step (busy [0x1D#8, 0x07#8, 0x00#8]) = .next t ∧
      t.readCell 7#16 ≠ (busy [0x1D#8, 0x07#8, 0x00#8]).readCell 7#16 := ⟨_, rfl, by decide⟩

theorem witness_FramesChangeOnlyByCallAndReturn :
    (∃ t, step (busy [0x2F#8, 0x00#8, 0x00#8]) = .next t ∧
      t.frames ≠ (busy [0x2F#8, 0x00#8, 0x00#8]).frames) ∧
    (∃ t, step (busy [0x30#8]) = .next t ∧ t.frames ≠ (busy [0x30#8]).frames) :=
  ⟨⟨_, rfl, by decide⟩, _, rfl, by decide⟩

theorem witness_FramesAreHiddenFromOtherInstructions :
    ∃ t, (Instr.addRR 0 1).mnemonic ≠ "call" ∧ (Instr.addRR 0 1).mnemonic ≠ "ret" ∧
      exec (.addRR 0 1) (busy []) = .next t := ⟨_, by decide, by decide, rfl⟩

theorem witness_CodeImageIsInvisibleToInstructions :
    ∃ t, exec (.cpRM 0 7#16) (busy [0x05#8, 0x01#8]) = .next t := ⟨_, rfl⟩

theorem witness_FlagsAreReadOnlyByTheirBranches :
    (∃ t, (Instr.bc 9#16).mnemonic ∉ ["be", "bne", "bg", "bge", "bl", "ble", "cmp"] ∧
      exec (.bc 9#16) (busy []) = .next t) ∧
    (∃ t, (Instr.be 9#16).mnemonic ∉ ["bc", "add", "sub", "mul", "div", "neg"] ∧
      exec (.be 9#16) (busy []) = .next t) := ⟨⟨_, by decide, rfl⟩, _, by decide, rfl⟩

theorem witness_CanonicalMemoriesThatReadAlikeAreEqual :
    Memory.wf [(0, 1#16), (65535, 2#16)] = true ∧
    Memory.wf (Memory.write (Memory.write [(65535, 2#16)] 0 7#16) 0 1#16) = true ∧
    ∀ a : Nat, a < 65536 → Memory.read [(0, 1#16), (65535, 2#16)] a =
      Memory.read (Memory.write (Memory.write [(65535, 2#16)] 0 7#16) 0 1#16) a :=
  ⟨by decide, by decide, fun _ _ => rfl⟩

theorem witness_AssertingResetKeepsOnlyTheCodeImage :
    ({ busy [0x31#8] with status := .faulted, errCode := 1#3 } : State).code.length ≤ 65536 := by decide

/-- A running machine with a frame, a cell and registers in it, about to call. -/
theorem busy_meets_the_invariant : Inv (busy [0x2F#8, 0x00#8, 0x00#8]) := by
  refine ⟨by decide, by decide, by decide, by decide, by decide, ⟨by decide, ?_, ?_, ?_, ?_⟩⟩
  · intro h; revert h; decide
  · intro h; revert h; decide
  · intro h; revert h; decide
  · intros; rfl

theorem witness_EveryStepKeepsTheInvariant :
    Inv (busy [0x2F#8, 0x00#8, 0x00#8]) ∧ ∃ t, step (busy [0x2F#8, 0x00#8, 0x00#8]) = .next t :=
  ⟨busy_meets_the_invariant, _, rfl⟩

theorem witness_EveryRunFromAnyImageStaysInTheInvariant :
    (halts 65536).length ≤ 65536 ∧ (halts 0).length ≤ 65536 := by
  rw [halts_length, halts_length]; decide

/-- A machine stopped by a fault, and the longest image. -/
theorem witness_ResetBeginsTheSameRunAgain :
    ({ busy [0x31#8] with status := .faulted, errCode := 1#3 } : State).code.length ≤ 65536 ∧
    (State.boot (halts 65536)).code.length ≤ 65536 :=
  ⟨by decide, Nat.le_of_eq (halts_length 65536)⟩

theorem witness_EveryInputSequenceStaysInTheInvariant : Inv (busy [0x2F#8, 0x00#8, 0x00#8]) :=
  busy_meets_the_invariant

end Sys2Proof.Tests
end

section
/-! What the meaning of an instruction can do to a state, said once, and the frame of the code image that
follows from it (spec/20_memory.md R42). -/

namespace Sys2Proof.Proofs

open Sys2Proof.Machine Sys2Proof.Safety

/-! ## The effect of an instruction -/

/-- Instruction `i` may write its result at a place: its destination register, or the cell that its
address field names. -/
def WritesAt (i : Instr) : Place → Prop
  | .reg ra => destReg i = some ra
  | .cell addr => (∃ ra, i = .cpMR addr ra) ∨ i = .negM addr ∨ i = .notM addr

/-- Instruction `i` raises this fault in state `s` (R171, R173, R174, R176, R177); the faults of the fetch
are raised by no instruction. -/
def Raises (i : Instr) (s : State) : Fault → Prop
  | .divisionByZero => i.mnemonic = "div"
  | .unknownOpcode _ _ => False
  | .stackOverflow => i.mnemonic = "call" ∧ ¬ s.depth < Config.maxFrames
  | .stackUnderflow => i = .ret ∧ s.frames = []
  | .codeOutOfBounds => False
  | .shiftAmountOutOfRange amount pc =>
    i.mnemonic ∈ ["shr", "shl"] ∧ 15 < amount.toNat ∧ pc = s.pc
  | .unspecifiedInstruction byte pc =>
    ((i = .puts ∧ byte = 0x2D#8) ∨ (i = .getc ∧ byte = 0x2E#8)) ∧ pc = s.pc

/-- The states that instruction `i` can leave, each with the guard under which it does: every `State`
operation that an instruction is made of stands here once. -/
inductive Effect (i : Instr) (s : State) : State → Prop where
  /-- a fault and no other effect (R74, R179) -/
  | fault (f : Fault) (raises : Raises i s f) : Effect i s (s.raise f)
  /-- a result without flags: the moves, the bitwise instructions and the shifts -/
  | write (dst : Place) (v : Word) (len : Nat) (writes : WritesAt i dst)
      (length : instrLength i = some len) : Effect i s ((s.writePlace dst v).advance len)
  /-- a wrapped result and the carry flag (R90) -/
  | arith (dst : Place) (e : Int) (len : Nat) (writes : WritesAt i dst)
      (arithmetic : i.mnemonic ∈ ["add", "sub", "mul", "div", "neg"])
      (length : instrLength i = some len) :
      Effect i s (({ s.writePlace dst (wrap16 e) with carry := overflows e } : State).advance len)
  /-- the comparison state alone (R130) -/
  | compare (a b : Word) (len : Nat) (compares : i.mnemonic = "cmp")
      (length : instrLength i = some len) :
      Effect i s (({ s with cmp := compareSigned a b } : State).advance len)
  /-- a branch or jump to its target (R134) -/
  | jump (target : Word)
      (branches : i.mnemonic ∈ ["be", "bne", "bg", "bge", "bl", "ble", "bc", "jmp"]) :
      Effect i s (s.jump target)
  /-- a branch that is not taken (R134) -/
  | skip (branches : i.mnemonic ∈ ["be", "bne", "bg", "bge", "bl", "ble", "bc"])
      (length : instrLength i = some 3) : Effect i s (s.advance 3)
  /-- a call with room for its frame (R151) -/
  | call (target : Word) (calls : i = .call target) (room : s.depth < Config.maxFrames) :
      Effect i s (({ s with frames := ⟨s.regs, s.nextPc 3⟩ :: s.frames } : State).jump target)
  /-- a return that finds a frame (R152) -/
  | ret (f : Frame) (rest : List Frame) (returns : i = .ret) (frames : s.frames = f :: rest) :
      Effect i s { s with frames := rest, regs := f.regs, pc := f.ret }
  /-- the end of a run in success (R162) -/
  | halt (halts : i = .halt) : Effect i s { s.advance 1 with status := .halted }

/-- An outcome is a next state that instruction `i` can leave. -/
def HasEffect (i : Instr) (s : State) (o : Host.Outcome State Fault Refusal) : Prop :=
  ∃ t, o = .next t ∧ Effect i s t

/-! ## The families -/

section Families

variable {i : Instr} {s : State} {dst : Place} {ra : Reg} {src : Source} {len : Nat}

theorem takeFault_hasEffect {f : Fault} (raises : Raises i s f) : HasEffect i s (takeFault f s) :=
  ⟨_, takeFault_eq f s, .fault f raises⟩

theorem moveTo_hasEffect (writes : WritesAt i dst) (length : instrLength i = some len) :
    HasEffect i s (moveTo dst src len s) :=
  ⟨_, moveTo_eq dst src len s, .write _ _ _ writes length⟩

theorem commitArith_hasEffect {e : Int} (writes : WritesAt i dst)
    (arithmetic : i.mnemonic ∈ ["add", "sub", "mul", "div", "neg"])
    (length : instrLength i = some len) : HasEffect i s (commitArith dst e len s) :=
  ⟨_, commitArith_eq dst e len s, .arith _ _ _ writes arithmetic length⟩

theorem divide_hasEffect (divides : i.mnemonic = "div") (writes : destReg i = some ra)
    (length : instrLength i = some len) : HasEffect i s (divide ra src len s) := by
  by_cases hz : s16 (s.readSource src) = 0
  · exact ⟨_, divide_zero hz ra len, .fault _ divides⟩
  · rw [divide_nonzero hz, arith_eq]
    exact commitArith_hasEffect writes (by simp [divides]) length

theorem bitwise_hasEffect {op : Word → Word → Word} (writes : destReg i = some ra)
    (length : instrLength i = some len) : HasEffect i s (bitwise op ra src len s) :=
  ⟨_, bitwise_eq op ra src len s, .write (.reg ra) _ _ writes length⟩

theorem complement_hasEffect (writes : WritesAt i dst) (length : instrLength i = some len) :
    HasEffect i s (complement dst len s) :=
  ⟨_, complement_eq dst len s, .write _ _ _ writes length⟩

theorem shift_hasEffect {op : Word → Nat → Word} (shifts : i.mnemonic ∈ ["shr", "shl"])
    (writes : destReg i = some ra) (length : instrLength i = some len) :
    HasEffect i s (shift op ra src len s) := by
  by_cases hr : (s.readSource src).toNat ≤ 15
  · exact ⟨_, shift_in_range hr op ra len, .write (.reg ra) _ _ writes length⟩
  · have hout := Nat.lt_of_not_le hr
    exact ⟨_, shift_out_of_range hout op ra len, .fault _ ⟨shifts, hout, rfl⟩⟩

theorem compareOperands_hasEffect (compares : i.mnemonic = "cmp")
    (length : instrLength i = some len) : HasEffect i s (compareOperands ra src len s) :=
  ⟨_, compareOperands_eq ra src len s, .compare _ _ _ compares length⟩

theorem branchIf_hasEffect {taken : Bool} {target : Word}
    (branches : i.mnemonic ∈ ["be", "bne", "bg", "bge", "bl", "ble", "bc"])
    (length : instrLength i = some 3) : HasEffect i s (branchIf taken target s) := by
  refine ⟨_, branchIf_eq taken target s, ?_⟩
  cases taken with
  | true => exact .jump target (List.mem_append_left ["jmp"] branches)
  | false => exact .skip branches length

theorem execCall_hasEffect (target : Word) : HasEffect (.call target) s (execCall target s) := by
  by_cases hd : s.depth < Config.maxFrames
  · exact ⟨_, execCall_room target hd, .call target rfl hd⟩
  · exact ⟨_, execCall_full target hd, .fault _ ⟨rfl, hd⟩⟩

theorem execRet_hasEffect : HasEffect .ret s (execRet s) := by
  cases hf : s.frames with
  | nil => exact ⟨_, execRet_empty hf, .fault _ ⟨rfl, hf⟩⟩
  | cons f rest => exact ⟨_, execRet_cons hf, .ret f rest rfl hf⟩

end Families

/-! ## Every instruction -/

/-- Every instruction answers a next state that is one of its effects. -/
theorem exec_hasEffect (i : Instr) (s : State) : HasEffect i s (exec i s) :=
  match i with
  | .cpRR _ _ | .cpRI _ _ | .cpRM _ _ => moveTo_hasEffect rfl rfl
  | .cpMR _ ra => moveTo_hasEffect (.inl ⟨ra, rfl⟩) rfl
  | .addRR _ _ | .addRI _ _ | .addRM _ _ | .subRR _ _ | .subRI _ _ | .subRM _ _
  | .mulRR _ _ | .mulRI _ _ | .mulRM _ _ =>
    commitArith_hasEffect rfl (by simp [Instr.mnemonic]) rfl
  | .divRR _ _ | .divRI _ _ | .divRM _ _ => divide_hasEffect rfl rfl rfl
  | .negR _ => commitArith_hasEffect rfl (by simp [Instr.mnemonic]) rfl
  | .negM _ => commitArith_hasEffect (.inr (.inl rfl)) (by simp [Instr.mnemonic]) rfl
  | .xorRR _ _ | .xorRI _ _ | .xorRM _ _ | .andRR _ _ | .andRI _ _ | .andRM _ _
  | .orRR _ _ | .orRI _ _ | .orRM _ _ => bitwise_hasEffect rfl rfl
  | .notR _ => complement_hasEffect rfl rfl
  | .notM _ => complement_hasEffect (.inr (.inr rfl)) rfl
  | .shrRR _ _ | .shrRI _ _ | .shlRR _ _ | .shlRI _ _ =>
    shift_hasEffect (by simp [Instr.mnemonic]) rfl rfl
  | .cmpRR _ _ | .cmpRI _ _ | .cmpRM _ _ => compareOperands_hasEffect rfl rfl
  | .be _ | .bne _ | .bg _ | .bge _ | .bl _ | .ble _ | .bc _ =>
    branchIf_hasEffect (by simp [Instr.mnemonic]) rfl
  | .jmp target => ⟨_, rfl, .jump target (by simp [Instr.mnemonic])⟩
  | .puts => takeFault_hasEffect ⟨.inl ⟨rfl, rfl⟩, rfl⟩
  | .getc => takeFault_hasEffect ⟨.inr ⟨rfl, rfl⟩, rfl⟩
  | .call target => execCall_hasEffect target
  | .ret => execRet_hasEffect
  | .halt => ⟨_, rfl, .halt rfl⟩

/-- The inversion of `exec`: a next state it answers is one of the instruction's effects. -/
theorem effect_of_exec {i : Instr} {s t : State} (h : exec i s = .next t) : Effect i s t := by
  obtain ⟨u, hu, heff⟩ := exec_hasEffect i s
  obtain rfl : u = t := Host.Outcome.next.inj (hu.symm.trans h)
  exact heff

/-! ## The code image (R32, R42) -/

theorem Effect.code_eq {i : Instr} {s t : State} (h : Effect i s t) : t.code = s.code := by
  cases h with
  | fault f => exact s.raise_code f
  | write dst v len => rw [State.advance_code, State.writePlace_code]
  | arith dst e len => rw [State.advance_code, State.writePlace_code]
  | compare a b len => rw [State.advance_code]
  | jump target => exact s.jump_code target
  | skip => exact s.advance_code 3
  | call target => rw [State.jump_code]
  | ret f rest => rfl
  | halt => exact s.advance_code 1

theorem step_code_eq {s t : State} (h : step s = .next t) : t.code = s.code := by
  obtain ⟨-, rfl⟩ | ⟨-, -, ⟨i, -, hexec⟩ | ⟨byte, -, rfl⟩ | ⟨-, rfl⟩⟩ := step_cases h
  · rfl
  · exact (effect_of_exec hexec).code_eq
  · exact s.raise_code _
  · exact s.raise_code _

/-- Fetch depends on the code image and `pc` alone. -/
theorem fetch_congr {s t : State} (hcode : t.code = s.code) (hpc : t.pc = s.pc) :
    t.fetch = s.fetch := by
  rw [State.fetch, State.fetch, hcode, hpc]

/-- Settles O39, from the effects of an instruction, none of which touches the code image, and from what a
fetch depends on. -/
theorem noStepChangesTheCodeImage : Obligations.NoStepChangesTheCodeImage :=
  ⟨fun _ _ h => step_code_eq h,
    fun s addr v => fetch_congr (s.writeCell_code addr v) (s.writeCell_pc addr v)⟩

end Sys2Proof.Proofs
end

section
/-! The opcode bytes that the map holds, the fault that an invalid one raises at the fetch, and what any
fault leaves unchanged (spec/30_encoding.md R62, spec/60_exceptions.md R172, R179). -/

namespace Sys2Proof.Proofs

open Sys2Proof.Machine Sys2Proof.Safety

/-! ## The bytes of the opcode map (R61, R62) -/

/-- The opcode map holds the bytes 0x01 to 0x31 in their order. -/
theorem opcodeTable_bytes :
    opcodeTable.map Prod.fst = (List.range' 1 49).map (BitVec.ofNat 8) := rfl

theorem mem_opcodeTable_bytes_iff (op : Byte) :
    op ∈ opcodeTable.map Prod.fst ↔ 0x01#8 ≤ op ∧ op ≤ 0x31#8 := by
  rw [opcodeTable_bytes]
  simp only [List.mem_map, List.mem_range'_1]
  constructor
  · rintro ⟨n, hn, rfl⟩
    bv_omega
  · intro h
    exact ⟨op.toNat, by bv_omega, by simp⟩

/-- A byte has no layout exactly when it is no byte of the opcode map. -/
theorem layoutOf_eq_none_iff (op : Byte) :
    layoutOf op = none ↔ op = 0x00#8 ∨ 0x31#8 < op := by
  have hmap : layoutOf op = none ↔ op ∉ opcodeTable.map Prod.fst := by
    simp only [layoutOf, List.lookup_eq_none_iff, List.mem_map, not_exists, not_and,
      bne_iff_ne, ne_eq, @eq_comm Byte op]
  rw [hmap, mem_opcodeTable_bytes_iff]
  bv_omega

/-! ## The fetch (R66, R71) -/

theorem fetch_of_fetchesFrom {s : State} {bytes : List Byte} (h : FetchesFrom s bytes) :
    s.fetch = decode bytes := by
  rw [State.fetch, h.bytes_eq]

/-- An unknown opcode byte at the fetch is the fault that a step of a running machine takes. -/
theorem step_of_fetch_unknownOpcode {s : State} {byte : Byte} (running : s.status = .running)
    (image_le : s.code.length ≤ 65536) (fetch : s.fetch = .unknownOpcode byte) :
    step s = .next (s.raise (.unknownOpcode byte s.pc)) := by
  simp [step, running, (imageWellFormed_iff s.code).2 image_le, fetch]

/-! ## The fault commit (R179) -/

/-- Raising a fault stops the machine with the fault's code and information and changes nothing else. -/
theorem stopsWith_raise (s : State) (f : Fault) :
    StopsWith s (.next (s.raise f)) (errCodeOf f) (errInfoOf f) :=
  ⟨s.raise f, rfl, s.raise_status f, s.raise_errCode f, s.raise_errInfo f, s.raise_pc f,
    State.readReg_of_regs_eq (s.raise_regs f), State.readCell_of_mem_eq (s.raise_mem f),
    ⟨s.raise_carry f, s.raise_cmp f⟩, s.raise_frames f, s.raise_code f⟩

/-! ## The obligation -/

/-- Settles O32: the byte has no layout, so the fetch answers it as unknown and the step takes its fault. -/
theorem invalidOpcodeAtPcFaults : Obligations.InvalidOpcodeAtPcFaults := by
  intro s op rest hfetch hinvalid
  have hdecode : decode (op :: rest) = .unknownOpcode op :=
    (decode_cons_unknown_iff op rest op).2 ⟨(layoutOf_eq_none_iff op).2 hinvalid, rfl⟩
  have hunknown : s.fetch = .unknownOpcode op := (fetch_of_fetchesFrom hfetch).trans hdecode
  rw [step_of_fetch_unknownOpcode hfetch.running hfetch.image_le hunknown]
  exact stopsWith_raise s (.unknownOpcode op s.pc)

end Sys2Proof.Proofs
end

section
/-! What an instruction can do to the status, and the atomicity of a faulting step that follows from it
(spec/40_step.md R74). -/

namespace Sys2Proof.Proofs

open Sys2Proof.Machine Sys2Proof.Safety

/-! ## The status (R24, R79) -/

/-- The status after an instruction: it is written by a fault and by `halt` alone. -/
theorem Effect.status_cases {i : Instr} {s t : State} (h : Effect i s t) :
    (∃ f, Raises i s f ∧ t = s.raise f) ∨ (i = .halt ∧ t.status = .halted) ∨
      t.status = s.status := by
  cases h with
  | fault f raises => exact .inl ⟨f, raises, rfl⟩
  | halt halts => exact .inr (.inl ⟨halts, rfl⟩)
  | write dst v len => exact .inr (.inr (by rw [State.advance_status, State.writePlace_status]))
  | arith dst e len => exact .inr (.inr (by rw [State.advance_status, State.writePlace_status]))
  | compare a b len => exact .inr (.inr (by rw [State.advance_status]))
  | jump target => exact .inr (.inr (s.jump_status target))
  | skip => exact .inr (.inr (s.advance_status 3))
  | call target => exact .inr (.inr (by rw [State.jump_status]))
  | ret f rest => exact .inr (.inr rfl)

/-! ## A faulting step (R74, R179) -/

/-- A meaning that takes a running machine to `Faulted` raised a fault and did nothing else. -/
theorem Effect.eq_raise_of_faulted {i : Instr} {s t : State} (h : Effect i s t)
    (running : s.status = .running) (faulted : t.status = .faulted) :
    ∃ f, Raises i s f ∧ t = s.raise f := by
  obtain hraise | ⟨-, hhalted⟩ | hkept := h.status_cases
  · exact hraise
  · simp [faulted] at hhalted
  · simp [faulted, running] at hkept

/-- A step that takes a running machine to `Faulted` is the commit of one fault. -/
theorem step_eq_raise_of_faulted {s t : State} (running : s.status = .running)
    (h : step s = .next t) (faulted : t.status = .faulted) : ∃ f, t = s.raise f := by
  obtain ⟨hended, -⟩ | ⟨-, -, ⟨i, -, hexec⟩ | ⟨byte, -, hraise⟩ | ⟨-, hraise⟩⟩ := step_cases h
  · exact absurd running hended
  · obtain ⟨f, -, hraise⟩ := (effect_of_exec hexec).eq_raise_of_faulted running faulted
    exact ⟨f, hraise⟩
  · exact ⟨_, hraise⟩
  · exact ⟨_, hraise⟩

/-- Settles O36: a faulting step is the commit of one fault, which writes the status and the two latches. -/
theorem faultingStepsAreAtomic : Obligations.FaultingStepsAreAtomic := by
  intro s t running hstep faulted
  obtain ⟨f, rfl⟩ := step_eq_raise_of_faulted running hstep faulted
  rfl

end Sys2Proof.Proofs
end

section
/-! The frame of a result without flags: what a write to a register or to a cell, followed by the advance of
`pc`, leaves in a state; and the move family, which does nothing else (spec/41_move.md R85). -/

namespace Sys2Proof.Proofs

open Sys2Proof.Machine Sys2Proof.Safety

section Writes

variable (s : State)

/-! ## The frame of a written place -/

theorem sameFlags_writePlace_advance (p : Place) (v : Word) (len : Nat) :
    SameFlags s ((s.writePlace p v).advance len) := by
  simp [SameFlags]

theorem sameControl_writePlace_advance (p : Place) (v : Word) (len : Nat) :
    SameControl s ((s.writePlace p v).advance len) := by
  simp [SameControl]

theorem writePlace_advance_pc (p : Place) (v : Word) (len : Nat) :
    ((s.writePlace p v).advance len).pc = s.pc + BitVec.ofNat 17 len := by
  rw [State.advance_pc, State.nextPc, State.writePlace_pc]

/-! ## A register or a cell written, then the advance -/

theorem writesReg_writeReg_advance (ra : Reg) (len : Nat) (v : Word) :
    WritesReg s (.next ((s.writeReg ra v).advance len)) ra len v := by
  have hreg : RegBecomes s ((s.writeReg ra v).advance len) ra v := fun r =>
    (State.readReg_of_regs_eq (State.advance_regs _ len) r).trans (s.readReg_writeReg ra r v)
  have hcells : SameCells s ((s.writeReg ra v).advance len) :=
    State.readCell_of_mem_eq ((State.advance_mem _ len).trans (s.writeReg_mem ra v))
  exact ⟨_, rfl, hreg, hcells, sameFlags_writePlace_advance s (.reg ra) v len,
    sameControl_writePlace_advance s (.reg ra) v len, writePlace_advance_pc s (.reg ra) v len⟩

theorem writesCell_writeCell_advance (addr : Word) (len : Nat) (v : Word) :
    WritesCell s (.next ((s.writeCell addr v).advance len)) addr len v := by
  have hcell : CellBecomes s ((s.writeCell addr v).advance len) addr v := fun a =>
    (State.readCell_of_mem_eq (State.advance_mem _ len) a).trans (s.readCell_writeCell addr v a)
  have hregs : SameRegs s ((s.writeCell addr v).advance len) :=
    State.readReg_of_regs_eq ((State.advance_regs _ len).trans (s.writeCell_regs addr v))
  exact ⟨_, rfl, hcell, hregs, sameFlags_writePlace_advance s (.cell addr) v len,
    sameControl_writePlace_advance s (.cell addr) v len, writePlace_advance_pc s (.cell addr) v len⟩

/-! ## The moves (R85 to R89) -/

theorem moveTo_writesReg (ra : Reg) (src : Source) (len : Nat) :
    WritesReg s (moveTo (.reg ra) src len s) ra len (s.readSource src) := by
  rw [moveTo_eq, State.writePlace_reg]
  exact writesReg_writeReg_advance s ra len (s.readSource src)

theorem moveTo_writesCell (addr : Word) (src : Source) (len : Nat) :
    WritesCell s (moveTo (.cell addr) src len s) addr len (s.readSource src) := by
  rw [moveTo_eq, State.writePlace_cell]
  exact writesCell_writeCell_advance s addr len (s.readSource src)

end Writes

/-- Settles O1: each form of `cp` is `moveTo` at its own destination, source and length. -/
theorem movesCopyOnePatternAndNothingElse : Obligations.MovesCopyOnePatternAndNothingElse := fun s =>
  ⟨fun ra rb => moveTo_writesReg s ra (.reg rb) 2,
    fun ra imm => moveTo_writesReg s ra (.imm imm) 4,
    fun addr ra => moveTo_writesCell s addr (.reg ra) 4,
    fun ra addr => moveTo_writesReg s ra (.cell addr) 4⟩

end Sys2Proof.Proofs
end

section
/-! The bitwise family: its results bit by bit, its frame, and the inversion of a cell that `not [addr]`
makes; no shift stores (spec/43_bitwise_shift.md R110 to R127). -/

namespace Sys2Proof.Proofs

open Sys2Proof.Machine Sys2Proof.Safety

/-- The model writes the inversion of `not` as an exclusive or (R120, R121). -/
theorem xor_ffff_eq_not (w : Word) : w ^^^ 0xFFFF#16 = ~~~w :=
  BitVec.xor_allOnes

theorem getLsbD_xor_ffff (w : Word) {k : Nat} (hk : k < 16) :
    (w ^^^ 0xFFFF#16).getLsbD k = !w.getLsbD k := by
  rw [xor_ffff_eq_not, BitVec.getLsbD_not, decide_eq_true hk, Bool.true_and]

theorem toNat_xor_ffff (w : Word) : (w ^^^ 0xFFFF#16).toNat = 65535 - w.toNat := by
  rw [xor_ffff_eq_not, BitVec.toNat_not]

section Results

variable (s : State)

/-! ## The bitwise operations on two operands (R110 to R119) -/

theorem bitwise_writesBits {op : Word → Word → Word} {f : Bool → Bool → Bool}
    (bits : ∀ (x y : Word) (k : Nat), (op x y).getLsbD k = f (x.getLsbD k) (y.getLsbD k))
    (ra : Reg) (src : Source) (len : Nat) :
    WritesBits s (bitwise op ra src len s) ra len f (s.readReg ra) (s.readSource src) := by
  rw [bitwise_eq]
  exact ⟨_, fun k _ => bits _ _ k, writesReg_writeReg_advance s ra len _⟩

theorem xor_writesBits (ra : Reg) (src : Source) (len : Nat) :
    WritesBits s (bitwise (fun a b => a ^^^ b) ra src len s) ra len Bool.xor (s.readReg ra)
      (s.readSource src) :=
  bitwise_writesBits s (fun _ _ _ => BitVec.getLsbD_xor) ra src len

theorem and_writesBits (ra : Reg) (src : Source) (len : Nat) :
    WritesBits s (bitwise (fun a b => a &&& b) ra src len s) ra len Bool.and (s.readReg ra)
      (s.readSource src) :=
  bitwise_writesBits s (fun _ _ _ => BitVec.getLsbD_and) ra src len

theorem or_writesBits (ra : Reg) (src : Source) (len : Nat) :
    WritesBits s (bitwise (fun a b => a ||| b) ra src len s) ra len Bool.or (s.readReg ra)
      (s.readSource src) :=
  bitwise_writesBits s (fun _ _ _ => BitVec.getLsbD_or) ra src len

/-! ## The inversion of a register or of a cell (R120, R121) -/

theorem complement_writesBits (ra : Reg) (len : Nat) (y : Word) :
    WritesBits s (complement (.reg ra) len s) ra len (fun x _ => !x) (s.readReg ra) y := by
  rw [complement_eq, State.writePlace_reg, State.readPlace_reg]
  exact ⟨_, fun k hk => getLsbD_xor_ffff _ hk, writesReg_writeReg_advance s ra len _⟩

theorem complement_writesCell (addr : Word) (len : Nat) :
    WritesCell s (complement (.cell addr) len s) addr len (s.readCell addr ^^^ 0xFFFF#16) := by
  rw [complement_eq, State.writePlace_cell, State.readPlace_cell]
  exact writesCell_writeCell_advance s addr len _

end Results

/-! ## The shifts leave data memory (R110, R122) -/

theorem shift_mem_eq {op : Word → Nat → Word} {ra : Reg} {src : Source} {len : Nat} {s t : State}
    (h : shift op ra src len s = .next t) : t.mem = s.mem := by
  by_cases hr : (s.readSource src).toNat ≤ 15
  · rw [shift_in_range hr] at h
    obtain rfl := Host.Outcome.next.inj h
    rw [State.advance_mem, State.writeReg_mem]
  · rw [shift_out_of_range (Nat.lt_of_not_le hr)] at h
    obtain rfl := Host.Outcome.next.inj h
    exact s.raise_mem _

theorem shift_sameCells {op : Word → Nat → Word} {ra : Reg} {src : Source} {len : Nat} {s t : State}
    (h : shift op ra src len s = .next t) : SameCells s t :=
  State.readCell_of_mem_eq (shift_mem_eq h)

/-- Settles O10: each form is its operation at its own source and length; a shift writes a register or
raises a fault, and neither touches data memory. -/
theorem bitwiseWorksBitByBitAndLeavesFlags : Obligations.BitwiseWorksBitByBitAndLeavesFlags := fun s =>
  ⟨fun ra rb => xor_writesBits s ra (.reg rb) 2,
    fun ra imm => xor_writesBits s ra (.imm imm) 4,
    fun ra addr => xor_writesBits s ra (.cell addr) 4,
    fun ra rb => and_writesBits s ra (.reg rb) 2,
    fun ra imm => and_writesBits s ra (.imm imm) 4,
    fun ra addr => and_writesBits s ra (.cell addr) 4,
    fun ra rb => or_writesBits s ra (.reg rb) 2,
    fun ra imm => or_writesBits s ra (.imm imm) 4,
    fun ra addr => or_writesBits s ra (.cell addr) 4,
    fun ra => complement_writesBits s ra 2 0#16,
    fun addr => ⟨_, fun _ hk => getLsbD_xor_ffff _ hk, complement_writesCell s addr 3⟩,
    fun _ _ _ => shift_sameCells,
    fun _ _ _ => shift_sameCells,
    fun _ _ _ => shift_sameCells,
    fun _ _ _ => shift_sameCells⟩

/-! ## `not [addr]` (R121) -/

theorem decode_notM (lo hi : Byte) (rest : List Byte) :
    decode (0x1D#8 :: lo :: hi :: rest) = .instr (.notM (wordOfBytes lo hi)) :=
  (decode_cons_instr_iff _ _ _).2 ⟨.m .notM, rfl, rfl⟩

/-- Settles O11: the opcode's layout reads the address, and the inverted cell is the exclusive or of its old
value with all ones. -/
theorem notCellInvertsTheCellItNames : Obligations.NotCellInvertsTheCellItNames :=
  ⟨decode_notM,
    fun s addr => ⟨_, toNat_xor_ffff (s.readCell addr), rfl, complement_writesCell s addr 3⟩⟩

end Sys2Proof.Proofs
end

section
/-! The branches: the bytes of the form that holds a target, where a branch goes and what it leaves
unchanged, and the comparison states on which each of the six is taken (spec/44_compare_branch.md R134 to
R140). -/

namespace Sys2Proof.Proofs

open Sys2Proof.Machine Sys2Proof.Safety

/-! ## The bytes of a form that holds a target (R58) -/

/-- An opcode of this form reads its target from the two bytes after it, low byte first. -/
theorem decode_target {op : Byte} {mk : Word → Instr} (layout : layoutOf op = some (.a mk))
    (lo hi : Byte) (rest : List Byte) :
    decode (op :: lo :: hi :: rest) = .instr (mk (wordOfBytes lo hi)) :=
  (decode_cons_instr_iff _ _ _).2 ⟨.a mk, layout, rfl⟩

section Transfers

variable (s : State)

/-! ## Where a branch goes (R134) -/

theorem goesTo_advance (len : Nat) :
    GoesTo s (.next (s.advance len)) (s.pc + BitVec.ofNat 17 len) :=
  ⟨s.advance len, rfl, s.advance_pc len, State.readReg_of_regs_eq (s.advance_regs len),
    State.readCell_of_mem_eq (s.advance_mem len), ⟨s.advance_carry len, s.advance_cmp len⟩,
    s.advance_frames len, s.advance_code len, s.advance_status len, s.advance_errCode len,
    s.advance_errInfo len⟩

theorem goesTo_jump (target : Word) : GoesTo s (.next (s.jump target)) (target.setWidth 17) :=
  ⟨s.jump target, rfl, s.jump_pc target, State.readReg_of_regs_eq (s.jump_regs target),
    State.readCell_of_mem_eq (s.jump_mem target), ⟨s.jump_carry target, s.jump_cmp target⟩,
    s.jump_frames target, s.jump_code target, s.jump_status target, s.jump_errCode target,
    s.jump_errInfo target⟩

theorem branchIf_goesTo (taken : Bool) (target : Word) :
    GoesTo s (branchIf taken target s)
      (if taken = true then target.setWidth 17 else s.pc + 3#17) := by
  rw [branchIf_eq]
  cases taken with
  | true => exact goesTo_jump s target
  | false => exact goesTo_advance s 3

/-- A branch that is taken on a set of comparison states, its condition stated as a proposition. -/
theorem branchOn_goesTo (states : List CmpState) (target : Word) {condition : Prop}
    [Decidable condition] (mem_iff : s.cmp ∈ states ↔ condition) :
    GoesTo s (branchIf (states.contains s.cmp) target s)
      (if condition then target.setWidth 17 else s.pc + 3#17) := by
  have taken_iff : states.contains s.cmp = true ↔ condition := List.contains_iff_mem.trans mem_iff
  rw [← if_congr taken_iff rfl rfl]
  exact branchIf_goesTo s _ target

end Transfers

/-! ## The six conditions (R135 to R140) -/

section Conditions

variable {c : CmpState}

theorem mem_takenOnEqual_iff : c ∈ takenOnEqual ↔ c = .equal := List.mem_singleton

theorem mem_takenOnNotEqual_iff : c ∈ takenOnNotEqual ↔ c = .lessThan ∨ c = .greaterThan :=
  List.mem_pair

theorem mem_takenOnGreater_iff : c ∈ takenOnGreater ↔ c = .greaterThan := List.mem_singleton

theorem mem_takenOnGreaterOrEqual_iff :
    c ∈ takenOnGreaterOrEqual ↔ c = .equal ∨ c = .greaterThan := List.mem_pair

theorem mem_takenOnLess_iff : c ∈ takenOnLess ↔ c = .lessThan := List.mem_singleton

theorem mem_takenOnLessOrEqual_iff : c ∈ takenOnLessOrEqual ↔ c = .equal ∨ c = .lessThan :=
  List.mem_pair

end Conditions

/-- Settles O15: each opcode's layout reads the target, and each branch is `branchIf` on its own set of
comparison states. -/
theorem branchesOnComparisonGoToTheirTarget : Obligations.BranchesOnComparisonGoToTheirTarget :=
  ⟨fun lo hi rest =>
    ⟨decode_target rfl lo hi rest, decode_target rfl lo hi rest, decode_target rfl lo hi rest,
      decode_target rfl lo hi rest, decode_target rfl lo hi rest, decode_target rfl lo hi rest⟩,
    fun s target =>
    ⟨branchOn_goesTo s takenOnEqual target mem_takenOnEqual_iff,
      branchOn_goesTo s takenOnNotEqual target mem_takenOnNotEqual_iff,
      branchOn_goesTo s takenOnGreater target mem_takenOnGreater_iff,
      branchOn_goesTo s takenOnGreaterOrEqual target mem_takenOnGreaterOrEqual_iff,
      branchOn_goesTo s takenOnLess target mem_takenOnLess_iff,
      branchOn_goesTo s takenOnLessOrEqual target mem_takenOnLessOrEqual_iff⟩⟩

end Sys2Proof.Proofs
end

section
/-! The two faults of the call-frame stack: a call that finds no room and a return that finds no frame
(spec/60_exceptions.md R173, R174). -/

namespace Sys2Proof.Proofs

open Sys2Proof.Machine Sys2Proof.Safety

/-! ## The guards of the stack, said on its depth (R150) -/

theorem no_room_of_depth_eq {s : State} (full : s.depth = 1000) : ¬ s.depth < Config.maxFrames :=
  Nat.not_lt_of_le full.ge

theorem frames_eq_nil_of_depth_eq_zero {s : State} (empty : s.depth = 0) : s.frames = [] :=
  List.eq_nil_of_length_eq_zero empty

/-! ## The obligations -/

/-- Settles O19: a full stack refuses the push, so the `call` is the fault commit alone. -/
theorem callOnAFullStackFaults : Obligations.CallOnAFullStackFaults := by
  intro s target full
  have overflow : exec (.call target) s = .next (s.raise .stackOverflow) :=
    execCall_full target (no_room_of_depth_eq full)
  rw [overflow]
  exact stopsWith_raise s .stackOverflow

/-- Settles O21: an empty stack refuses the pop, so the `ret` is the fault commit alone. -/
theorem returnOnAnEmptyStackFaults : Obligations.ReturnOnAnEmptyStackFaults := by
  intro s empty
  have underflow : exec .ret s = .next (s.raise .stackUnderflow) :=
    execRet_empty (frames_eq_nil_of_depth_eq_zero empty)
  rw [underflow]
  exact stopsWith_raise s .stackUnderflow

end Sys2Proof.Proofs
end

section
/-! The encoding, in both directions: decoding an encoded instruction, the bytes that decode to one, its
length, the spare nibble, and the opcode map (spec/30_encoding.md R50 to R66). -/

namespace Sys2Proof.Proofs

open Sys2Proof.Machine Sys2Proof.Safety

/-! ## Decoding what a form encodes (R52 to R58) -/

section Forms

variable {op : Byte} (rest : List Byte)

theorem decode_encodeRR {mk : Reg → Reg → Instr} (layout : layoutOf op = some (.rr mk)) (ra rb : Reg) :
    decode (encodeRR op ra rb ++ rest) = .instr (mk ra rb) :=
  (decode_cons_instr_iff _ _ _).2 ⟨_, layout, by simp [readOperands]⟩

theorem decode_encodeRI {mk : Reg → Word → Instr} (layout : layoutOf op = some (.ri mk)) (ra : Reg)
    (w : Word) : decode (encodeRI op ra w ++ rest) = .instr (mk ra w) :=
  (decode_cons_instr_iff _ _ _).2 ⟨_, layout, by simp [readOperands]⟩

theorem decode_encodeRM {mk : Reg → Word → Instr} (layout : layoutOf op = some (.rm mk)) (ra : Reg)
    (w : Word) : decode (encodeRI op ra w ++ rest) = .instr (mk ra w) :=
  (decode_cons_instr_iff _ _ _).2 ⟨_, layout, by simp [readOperands]⟩

theorem decode_encodeMR {mk : Word → Reg → Instr} (layout : layoutOf op = some (.mr mk)) (w : Word)
    (ra : Reg) : decode (encodeMR op w ra ++ rest) = .instr (mk w ra) :=
  (decode_cons_instr_iff _ _ _).2 ⟨_, layout, by simp [readOperands]⟩

theorem decode_encodeR {mk : Reg → Instr} (layout : layoutOf op = some (.r mk)) (ra : Reg) :
    decode (encodeR op ra ++ rest) = .instr (mk ra) :=
  (decode_cons_instr_iff _ _ _).2 ⟨_, layout, by simp [readOperands]⟩

theorem decode_encodeM {mk : Word → Instr} (layout : layoutOf op = some (.m mk)) (w : Word) :
    decode (encodeM op w ++ rest) = .instr (mk w) :=
  (decode_cons_instr_iff _ _ _).2 ⟨_, layout, by simp [readOperands]⟩

theorem decode_encodeA {mk : Word → Instr} (layout : layoutOf op = some (.a mk)) (w : Word) :
    decode (encodeM op w ++ rest) = .instr (mk w) :=
  (decode_cons_instr_iff _ _ _).2 ⟨_, layout, by simp [readOperands]⟩

theorem decode_n {i : Instr} (layout : layoutOf op = some (.n i)) :
    decode (op :: rest) = .instr i :=
  (decode_cons_instr_iff _ _ _).2 ⟨_, layout, rfl⟩

theorem decode_reserved {i : Instr} (layout : layoutOf op = some (.reserved i)) :
    decode (op :: rest) = .instr i :=
  (decode_cons_instr_iff _ _ _).2 ⟨_, layout, rfl⟩

end Forms

/-- Settles O26: every constructor is encoded by the form that the opcode map gives its opcode byte, and
the fields of a form are read back from their bytes. -/
theorem decodeOfEncodeIsTheInstruction : Obligations.DecodeOfEncodeIsTheInstruction := fun i rest =>
  match i with
  | .cpRR .. | .addRR .. | .subRR .. | .mulRR .. | .divRR .. | .xorRR .. | .andRR .. | .orRR ..
  | .shrRR .. | .shlRR .. | .cmpRR .. => decode_encodeRR rest rfl _ _
  | .cpRI .. | .addRI .. | .subRI .. | .mulRI .. | .divRI .. | .xorRI .. | .andRI .. | .orRI ..
  | .shrRI .. | .shlRI .. | .cmpRI .. => decode_encodeRI rest rfl _ _
  | .cpRM .. | .addRM .. | .subRM .. | .mulRM .. | .divRM .. | .xorRM .. | .andRM .. | .orRM ..
  | .cmpRM .. => decode_encodeRM rest rfl _ _
  | .cpMR .. => decode_encodeMR rest rfl _ _
  | .negR _ | .notR _ => decode_encodeR rest rfl _
  | .negM _ | .notM _ => decode_encodeM rest rfl _
  | .be _ | .bne _ | .bg _ | .bge _ | .bl _ | .ble _ | .bc _ | .jmp _ | .call _ =>
    decode_encodeA rest rfl _
  | .ret | .halt => decode_n rest rfl
  | .puts | .getc => decode_reserved rest rfl

/-- Settles O30: each word is the encoding of its instruction. -/
theorem wordsFromTheTablesDecode : Obligations.WordsFromTheTablesDecode :=
  ⟨decodeOfEncodeIsTheInstruction (.cpRR 3 1) [],
    decodeOfEncodeIsTheInstruction (.cpRI 0 2000#16) [],
    decodeOfEncodeIsTheInstruction (.cpMR 0xFEFF#16 7) [],
    decodeOfEncodeIsTheInstruction (.cpRM 2 0x1234#16) [],
    decodeOfEncodeIsTheInstruction (.negR 3) [],
    decodeOfEncodeIsTheInstruction (.negM 0x0100#16) [],
    decodeOfEncodeIsTheInstruction (.jmp 0x1000#16) [],
    decodeOfEncodeIsTheInstruction .halt []⟩

/-! ## The bytes that decode to an instruction (R64) -/

/-- The bytes agree with the encoding of the instruction but for its spare nibble. -/
def AgreesButForSpareNibble (bytes : List Byte) (i : Instr) : Prop :=
  (encode i).length ≤ bytes.length ∧ bytes.head? = (encode i).head? ∧
    ∀ (k : Nat) (b e : Byte), bytes[k]? = some b → (encode i)[k]? = some e →
      if spareNibbleAt i = some k then e = b &&& 0x0F#8 else e = b

theorem agrees_of_no_spare {code rest : List Byte} {i : Instr} (nonempty : code ≠ [])
    (encoded : encode i = code) (spare : spareNibbleAt i = none) :
    AgreesButForSpareNibble (code ++ rest) i := by
  refine ⟨by simp [encoded], by rw [encoded, List.head?_append_of_ne_nil _ nonempty], ?_⟩
  intro k b e hb he
  have hk : k < code.length := (List.getElem?_eq_some_iff.1 (encoded ▸ he)).1
  rw [List.getElem?_append_left hk, ← encoded, he] at hb
  simpa [spare] using Option.some.inj hb

/-- The register byte `b` stands after the bytes `lead`; the encoding has it with a clear high nibble. -/
theorem agrees_of_spare {lead tail rest : List Byte} {b : Byte} {i : Instr} (nonempty : lead ≠ [])
    (encoded : encode i = lead ++ regByte (lowReg b) :: tail)
    (spare : spareNibbleAt i = some lead.length) :
    AgreesButForSpareNibble (lead ++ b :: (tail ++ rest)) i := by
  refine ⟨by simp [encoded], ?_, ?_⟩
  · rw [encoded, List.head?_append_of_ne_nil _ nonempty, List.head?_append_of_ne_nil _ nonempty]
  · intro k c e hc he
    rw [encoded] at he
    have other (hne : k ≠ lead.length) : spareNibbleAt i ≠ some k := by
      rw [spare]; exact fun heq => hne (Option.some.inj heq).symm
    obtain hlt | rfl | hgt := Nat.lt_trichotomy k lead.length
    · rw [List.getElem?_append_left hlt] at hc he
      rw [if_neg (other hlt.ne)]
      exact Option.some.inj (he.symm.trans hc)
    · rw [if_pos spare]
      simp only [List.getElem?_append_right le_rfl, Nat.sub_self, List.getElem?_cons_zero,
        Option.some.injEq] at hc he
      rw [← he, ← hc, regByte_lowReg]
    · obtain ⟨j, rfl⟩ := Nat.exists_eq_add_of_lt hgt
      have hj : lead.length + j + 1 - lead.length = j + 1 := by omega
      rw [List.getElem?_append_right hgt.le, hj, List.getElem?_cons_succ] at hc he
      have hlt : j < tail.length := (List.getElem?_eq_some_iff.1 he).1
      rw [List.getElem?_append_left hlt, he] at hc
      rw [if_neg (other hgt.ne')]
      exact Option.some.inj hc

/-- A row of the opcode map has its spare nibble where its form has it. -/
def RowSpares : Byte × Layout → Prop
  | (_, .rr mk) => ∀ ra rb, spareNibbleAt (mk ra rb) = none
  | (_, .ri mk) | (_, .rm mk) => ∀ ra w, spareNibbleAt (mk ra w) = some 1
  | (_, .mr mk) => ∀ w ra, spareNibbleAt (mk w ra) = some 3
  | (_, .r mk) => ∀ ra, spareNibbleAt (mk ra) = some 1
  | (_, .m mk) | (_, .a mk) => ∀ w, spareNibbleAt (mk w) = none
  | (_, .n i) | (_, .reserved i) => spareNibbleAt i = none

theorem opcodeTable_spares : ∀ row ∈ opcodeTable, RowSpares row := by
  simp [opcodeTable, moveRows, arithRows, bitwiseRows, shiftRows, compareRows, branchRows, systemRows,
    RowSpares, spareNibbleAt]

/-- The bytes that a layout reads to an instruction, form by form. -/
theorem agrees_of_readOperands {op : Byte} {layout : Layout} {operands : List Byte} {i : Instr}
    (row : (op, layout) ∈ opcodeTable) (h : readOperands layout operands = some i) :
    AgreesButForSpareNibble (op :: operands) i := by
  have agrees := opcodeTable_agrees _ row
  have spares := opcodeTable_spares _ row
  unfold readOperands at h
  split at h <;> cases h
  case h_1 mk b rest =>
    refine agrees_of_no_spare (code := [op, b]) (List.cons_ne_nil _ _) ?_ (spares _ _)
    rw [(agrees _ _).1, encodeRR, regPairByte_of_fields]
  case h_2 mk b lo hi rest | h_3 mk b lo hi rest =>
    refine agrees_of_spare (lead := [op]) (tail := [lo, hi]) (List.cons_ne_nil _ _) ?_ (spares _ _)
    simp [(agrees _ _).1, encodeRI]
  case h_4 mk lo hi b rest =>
    refine agrees_of_spare (lead := [op, lo, hi]) (tail := []) (List.cons_ne_nil _ _) ?_ (spares _ _)
    simp [(agrees _ _).1, encodeMR]
  case h_5 mk b rest =>
    refine agrees_of_spare (lead := [op]) (tail := []) (List.cons_ne_nil _ _) ?_ (spares _)
    simp [(agrees _).1, encodeR]
  case h_6 mk lo hi rest | h_7 mk lo hi rest =>
    refine agrees_of_no_spare (code := [op, lo, hi]) (List.cons_ne_nil _ _) ?_ (spares _)
    simp [(agrees _).1, encodeM]
  case h_8 | h_9 => exact agrees_of_no_spare (code := [op]) (List.cons_ne_nil _ _) agrees.1 spares

theorem exists_row_of_decode {op : Byte} {operands : List Byte} {i : Instr}
    (h : decode (op :: operands) = .instr i) :
    ∃ layout, (op, layout) ∈ opcodeTable ∧ readOperands layout operands = some i := by
  obtain ⟨layout, hlayout, hread⟩ := (decode_cons_instr_iff op operands i).1 h
  exact ⟨layout, layoutOf_mem hlayout, hread⟩

/-- Settles O27: the opcode byte has a row, and each form keeps every byte that it reads but the spare
nibble. -/
theorem decodedBytesAreTheEncodingButForASpareNibble :
    Obligations.DecodedBytesAreTheEncodingButForASpareNibble := by
  intro bytes i h
  cases bytes with
  | nil => cases h
  | cons op operands =>
    obtain ⟨layout, row, hread⟩ := exists_row_of_decode h
    exact agrees_of_readOperands row hread

/-! ## The length of an instruction (R61) and of what is cut off (R72) -/

theorem encode_length {i : Instr} {n : Nat} (length : instrLength i = some n) :
    (encode i).length = n := by
  cases i <;> cases length <;> rfl

/-- The instruction that bytes decode to is not longer than they are. -/
theorem instrLength_le_of_decode {bytes : List Byte} {i : Instr} {n : Nat}
    (h : decode bytes = .instr i) (length : instrLength i = some n) : n ≤ bytes.length := by
  have hle := (decodedBytesAreTheEncodingButForASpareNibble bytes i h).1
  rwa [encode_length length] at hle

/-- The length of the instructions of a layout, whatever their operands. -/
def lengthOfLayout : Layout → Option Nat
  | .rr _ | .r _ => some 2
  | .ri _ | .rm _ | .mr _ => some 4
  | .m _ | .a _ => some 3
  | .n _ => some 1
  | .reserved _ => none

theorem instrLength_of_readOperands {op : Byte} {layout : Layout} {operands : List Byte} {i : Instr}
    (row : (op, layout) ∈ opcodeTable) (h : readOperands layout operands = some i) :
    instrLength i = lengthOfLayout layout := by
  have agrees := opcodeTable_agrees _ row
  unfold readOperands at h
  split at h <;> cases h
  case h_1 | h_2 | h_3 | h_4 => exact (agrees _ _).2
  case h_5 | h_6 | h_7 => exact (agrees _).2
  case h_8 | h_9 => exact agrees.2

/-- The bytes after an opcode do not change the length of the instruction. -/
theorem instrLength_eq_of_same_opcode {op : Byte} {xs ys : List Byte} {i j : Instr}
    (hi : decode (op :: xs) = .instr i) (hj : decode (op :: ys) = .instr j) :
    instrLength i = instrLength j := by
  obtain ⟨layout, hlayout, hread⟩ := (decode_cons_instr_iff op xs i).1 hi
  obtain ⟨layout', hlayout', hread'⟩ := (decode_cons_instr_iff op ys j).1 hj
  obtain rfl : layout = layout' := Option.some.inj (hlayout.symm.trans hlayout')
  have row := layoutOf_mem hlayout
  rw [instrLength_of_readOperands row hread, instrLength_of_readOperands row hread']

/-- Fewer bytes than the instruction of an opcode needs are out of bounds. -/
theorem decode_truncated {op : Byte} {long short : List Byte} {i : Instr} {n : Nat}
    (h : decode (op :: long) = .instr i) (length : instrLength i = some n)
    (truncated : short.length + 1 < n) : decode (op :: short) = .outOfBounds := by
  cases hshort : decode (op :: short) with
  | outOfBounds => rfl
  | unknownOpcode byte =>
    obtain ⟨layout, hlayout, -⟩ := (decode_cons_instr_iff op long i).1 h
    obtain ⟨hnone, -⟩ := (decode_cons_unknown_iff op short byte).1 hshort
    rw [hlayout] at hnone
    cases hnone
  | instr j =>
    have hle : n ≤ short.length + 1 := instrLength_le_of_decode hshort
      ((instrLength_eq_of_same_opcode hshort h).trans length)
    omega

/-! ## The spare nibble (R64) -/

/-- Layouts whose first operand byte is a register byte with a spare nibble: forms RI, RM and R. -/
def spareFirst : Layout → Bool
  | .ri _ | .rm _ | .r _ => true
  | .rr _ | .mr _ | .m _ | .a _ | .n _ | .reserved _ => false

theorem lowReg_congr {b c : Byte} (h : b.extractLsb' 0 4 = c.extractLsb' 0 4) :
    lowReg b = lowReg c := congrArg BitVec.toFin h

theorem readOperands_spareFirst {layout : Layout} (spare : spareFirst layout = true) {b c : Byte}
    (low : lowReg b = lowReg c) (rest : List Byte) :
    readOperands layout (b :: rest) = readOperands layout (c :: rest) := by
  cases layout with
  | ri mk | rm mk => obtain _ | ⟨lo, _ | ⟨hi, rest⟩⟩ := rest <;> simp [readOperands, low]
  | r mk => simp [readOperands, low]
  | rr mk | mr mk | m mk | a mk | n i | reserved i => cases spare

/-- Where every layout of the opcode reads the same, the decoder does. -/
theorem decode_congr {op : Byte} {xs ys : List Byte}
    (h : ∀ layout, layoutOf op = some layout → readOperands layout xs = readOperands layout ys) :
    decode (op :: xs) = decode (op :: ys) := by
  cases hlayout : layoutOf op with
  | none => simp only [decode, hlayout]
  | some layout => simp only [decode, hlayout, h layout hlayout]

theorem decode_spareFirst {op : Byte} (spare : (layoutOf op).all spareFirst = true) {b c : Byte}
    (low : lowReg b = lowReg c) (rest : List Byte) :
    decode (op :: b :: rest) = decode (op :: c :: rest) :=
  decode_congr fun layout hlayout => by
    rw [hlayout] at spare
    exact readOperands_spareFirst spare low rest

/-- Settles O28: the layouts of these opcodes read the low nibble of the register byte alone. -/
theorem spareNibbleIsIgnored : Obligations.SpareNibbleIsIgnored := by
  intro b c rest hlow
  have low : lowReg b = lowReg c := lowReg_congr hlow
  refine ⟨fun op hop => decode_spareFirst ?_ low rest, fun lo hi => decode_congr ?_⟩
  · revert op
    decide
  · rintro layout ⟨⟩
    simp only [readOperands, low]

/-! ## The opcode map (R61, R62) -/

/-- Settles O29: the map holds the bytes 0x01 to 0x31 in their order, and the decoder refuses a byte
without a layout before it reads an operand. -/
theorem opcodeMapIsOneToOneAndRejectsTheRest : Obligations.OpcodeMapIsOneToOneAndRejectsTheRest := by
  refine ⟨?_, rfl, fun op rest => ?_⟩
  · rw [opcodeTable_bytes]
    decide
  · rw [decode_cons_unknown_iff, layoutOf_eq_none_iff]
    exact and_iff_left rfl

end Sys2Proof.Proofs
end

section
/-! What a step answers: the meaning of the fetched instruction, the fault of a fetch past the image, the
refusal outside the domain, and the sequencer that writes `pc` (spec/40_step.md R71 to R80, R16). -/

namespace Sys2Proof.Proofs

open Sys2Proof.Machine Sys2Proof.Safety

/-! ## The answer of a step, case by case -/

theorem step_of_ended {s : State} (ended : s.status ≠ .running) : step s = .next s := by
  unfold step
  cases hs : s.status with
  | running => exact absurd hs ended
  | halted | faulted => rfl

theorem step_of_fetch_instr {s : State} {i : Instr} (running : s.status = .running)
    (image_le : s.code.length ≤ 65536) (fetch : s.fetch = .instr i) : step s = exec i s := by
  simp [step, running, (imageWellFormed_iff s.code).2 image_le, fetch]

theorem step_of_fetch_outOfBounds {s : State} (running : s.status = .running)
    (image_le : s.code.length ≤ 65536) (fetch : s.fetch = .outOfBounds) :
    step s = .next (s.raise .codeOutOfBounds) := by
  simp [step, running, (imageWellFormed_iff s.code).2 image_le, fetch]

theorem step_of_image_too_long {s : State} (running : s.status = .running)
    (too_long : 65536 < s.code.length) : step s = .refused .codeImageTooLong := by
  have ill_formed : ¬ imageWellFormed s.code = true := by
    rw [imageWellFormed_iff]
    exact Nat.not_le_of_lt too_long
  simp [step, running, ill_formed]

/-- Settles O31: the step of a running machine in the domain is decided by its fetch. -/
theorem stepRunsTheDecodedInstruction : Obligations.StepRunsTheDecodedInstruction :=
  fun _ _ running image_le hdecode => step_of_fetch_instr running image_le hdecode

/-! ## Totality in the domain (R197) -/

theorem exec_answers (i : Instr) (s : State) : ∃ t, exec i s = .next t := by
  obtain ⟨t, ht, -⟩ := exec_hasEffect i s
  exact ⟨t, ht⟩

theorem step_answers {s : State} (image_le : s.code.length ≤ 65536) : ∃ t, step s = .next t := by
  by_cases running : s.status = .running
  · cases fetch : s.fetch with
    | instr i => rw [step_of_fetch_instr running image_le fetch]; exact exec_answers i s
    | unknownOpcode byte => exact ⟨_, step_of_fetch_unknownOpcode running image_le fetch⟩
    | outOfBounds => exact ⟨_, step_of_fetch_outOfBounds running image_le fetch⟩
  · exact ⟨s, step_of_ended running⟩

/-- Settles O34: each answer of the fetch has its next state, and only the check of the image refuses. -/
theorem everyStepInTheDomainAnswersANextState : Obligations.EveryStepInTheDomainAnswersANextState :=
  ⟨fun _ image_le => step_answers image_le,
    fun _ running too_long => step_of_image_too_long running too_long⟩

/-- Settles O35, by induction on the number of steps. -/
theorem endedRunsNeverChange : Obligations.EndedRunsNeverChange := by
  intro s n ended
  induction n with
  | zero => rfl
  | succ n ih => exact (core_run_succ_of_next n (step_of_ended ended)).trans ih

/-! ## Bytes past the image (R71, R72) -/

theorem stopsWith_of_fetch_outOfBounds {s : State} (running : s.status = .running)
    (image_le : s.code.length ≤ 65536) (fetch : s.fetch = .outOfBounds) :
    StopsWith s (step s) 5#3 0#16 := by
  rw [step_of_fetch_outOfBounds running image_le fetch]
  exact stopsWith_raise s .codeOutOfBounds

theorem stopsWith_of_pc_outside {s : State} (running : s.status = .running)
    (image_le : s.code.length ≤ 65536) (outside : s.code.length ≤ s.pc.toNat) :
    StopsWith s (step s) 5#3 0#16 :=
  stopsWith_of_fetch_outOfBounds running image_le
    (by rw [State.fetch, List.drop_eq_nil_of_le outside, decode])

/-- Settles O33: no byte is left to fetch, or fewer than the opcode's instruction needs. -/
theorem bytesPastTheImageFaultFirst : Obligations.BytesPastTheImageFaultFirst := by
  refine ⟨fun s => stopsWith_of_pc_outside, ?_⟩
  intro s op rest i n hfetch hdecode length truncated
  exact stopsWith_of_fetch_outOfBounds hfetch.running hfetch.image_le
    ((fetch_of_fetchesFrom hfetch).trans (decode_truncated hdecode length truncated))

/-! ## The end of a run in success (R79) -/

/-- A step that an instruction was fetched for is one of its effects. -/
theorem effect_of_step {s t : State} {i : Instr} (running : s.status = .running)
    (image_le : s.code.length ≤ 65536) (h : step s = .next t) (fetch : s.fetch = .instr i) :
    Effect i s t :=
  effect_of_exec ((step_of_fetch_instr running image_le fetch).symm.trans h)

theorem Effect.eq_halt_of_halted {i : Instr} {s t : State} (h : Effect i s t)
    (running : s.status = .running) (halted : t.status = .halted) : i = .halt := by
  obtain ⟨f, -, rfl⟩ | ⟨rfl, -⟩ | hkept := h.status_cases
  · cases halted
  · rfl
  · simp [halted, running] at hkept

theorem status_of_exec_halt {s t : State} (h : exec .halt s = .next t) : t.status = .halted := by
  obtain rfl := Host.Outcome.next.inj h
  rfl

/-- Settles O37: a step that ends in `Halted` executed an instruction, and of the instructions only `halt`
leaves that status. -/
theorem onlyHaltEndsARunInSuccess : Obligations.OnlyHaltEndsARunInSuccess := by
  intro s t running image_le hstep
  constructor
  · intro halted
    obtain ⟨hended, -⟩ | ⟨-, -, ⟨i, fetch, hexec⟩ | ⟨byte, -, rfl⟩ | ⟨-, rfl⟩⟩ := step_cases hstep
    · exact absurd running hended
    · rw [fetch, (effect_of_exec hexec).eq_halt_of_halted running halted]
    · cases halted
    · cases halted
  · intro fetch
    exact status_of_exec_halt ((step_of_fetch_instr running image_le fetch).symm.trans hstep)

/-! ## The fetched instruction lies inside the image (R16, R72) -/

theorem pc_lt_of_fetch_instr {s : State} {i : Instr} (fetch : s.fetch = .instr i) :
    s.pc.toNat < s.code.length := by
  by_contra outside
  rw [State.fetch, List.drop_eq_nil_of_le (Nat.le_of_not_lt outside)] at fetch
  cases fetch

theorem pc_add_length_le {s : State} {i : Instr} {n : Nat} (fetch : s.fetch = .instr i)
    (length : instrLength i = some n) : s.pc.toNat + n ≤ s.code.length := by
  have hlt := pc_lt_of_fetch_instr fetch
  have hle := instrLength_le_of_decode fetch length
  rw [List.length_drop] at hle
  omega

/-- Seventeen bits hold the address after an instruction that ends at 65536 or before. -/
theorem toNat_pc_add {pc : PcVal} {n : Nat} (fits : pc.toNat + n ≤ 65536) :
    (pc + BitVec.ofNat 17 n).toNat = pc.toNat + n := by
  rw [BitVec.toNat_add, BitVec.toNat_ofNat]
  omega

theorem toNat_zero_extended (target : Word) : (target.setWidth 17).toNat = target.toNat :=
  BitVec.toNat_setWidth_of_le (by decide)

/-! ## The four sources of `pc` (R76) -/

/-- The mnemonics that may take `pc` elsewhere than to the address after the instruction. -/
def transferMnemonics : List String :=
  ["be", "bne", "bg", "bge", "bl", "ble", "bc", "jmp", "call", "ret"]

/-- Sequential advance: what every completed instruction that is no transfer does to `pc`. -/
theorem Effect.pc_of_sequential {i : Instr} {s t : State} {n : Nat} (h : Effect i s t)
    (completed : t.status ≠ .faulted) (length : instrLength i = some n)
    (sequential : i.mnemonic ∉ transferMnemonics) : t.pc = s.pc + BitVec.ofNat 17 n := by
  cases h with
  | fault f => exact absurd (s.raise_status f) completed
  | write dst v len writes hlen =>
    obtain rfl := Option.some.inj (hlen.symm.trans length)
    exact writePlace_advance_pc s dst v len
  | arith dst e len writes arithmetic hlen =>
    obtain rfl := Option.some.inj (hlen.symm.trans length)
    rw [State.advance_pc, State.nextPc, State.writePlace_pc]
  | compare a b len compares hlen =>
    obtain rfl := Option.some.inj (hlen.symm.trans length)
    rw [State.advance_pc, State.nextPc]
  | jump target branches =>
    exact absurd (List.mem_append_left ["call", "ret"] branches) sequential
  | skip branches =>
    exact absurd (List.mem_append_left ["jmp", "call", "ret"] branches) sequential
  | call target calls => simp [calls, Instr.mnemonic, transferMnemonics] at sequential
  | ret f rest returns => simp [returns, Instr.mnemonic, transferMnemonics] at sequential
  | halt halts =>
    subst halts
    obtain rfl := Option.some.inj length
    exact s.advance_pc 1

theorem pc_of_goesTo {s t : State} {o : Host.Outcome State Fault Refusal} {dest : PcVal}
    (h : GoesTo s o dest) (answer : o = .next t) : t.pc = dest := by
  obtain ⟨u, hu, hpc, -⟩ := h
  obtain rfl := Host.Outcome.next.inj (hu.symm.trans answer)
  exact hpc

theorem pc_of_exec_call {s t : State} {target : Word} (h : exec (.call target) s = .next t)
    (completed : t.status ≠ .faulted) : t.pc = target.setWidth 17 := by
  by_cases room : s.depth < Config.maxFrames
  · obtain rfl := Host.Outcome.next.inj ((execCall_room target room).symm.trans h)
    exact State.jump_pc _ target
  · obtain rfl := Host.Outcome.next.inj ((execCall_full target room).symm.trans h)
    exact absurd (s.raise_status _) completed

theorem pc_of_exec_ret {s t : State} (h : exec .ret s = .next t) (completed : t.status ≠ .faulted) :
    ∃ f, s.frames.head? = some f ∧ t.pc = f.ret := by
  cases hf : s.frames with
  | nil =>
    obtain rfl := Host.Outcome.next.inj ((execRet_empty hf).symm.trans h)
    exact absurd (s.raise_status _) completed
  | cons f rest =>
    obtain rfl := Host.Outcome.next.inj ((execRet_cons hf).symm.trans h)
    exact ⟨f, rfl, rfl⟩

/-! ## A transfer checks no target (R16) -/

/-- A transfer raises no fault. -/
theorem not_raises_of_transfers {s : State} {i : Instr} (transfers : Transfers s i) (f : Fault) :
    ¬ Raises i s f := by
  intro raises
  cases f with
  | divisionByZero =>
    have divides : i.mnemonic = "div" := raises
    simp [Transfers, divides] at transfers
  | unknownOpcode byte pc | codeOutOfBounds => exact raises
  | stackOverflow =>
    obtain ⟨calls, full⟩ := raises
    have room : s.depth < 1000 := by simpa [Transfers, calls] using transfers
    exact full room
  | stackUnderflow =>
    obtain ⟨rfl, empty⟩ := raises
    simp [Transfers, Instr.mnemonic, State.depth, empty] at transfers
  | shiftAmountOutOfRange amount pc =>
    obtain ⟨shifts, -⟩ := raises
    obtain right | left := List.mem_pair.1 shifts
    · simp [Transfers, right] at transfers
    · simp [Transfers, left] at transfers
  | unspecifiedInstruction byte pc =>
    obtain ⟨⟨rfl, -⟩ | ⟨rfl, -⟩, -⟩ := raises
    · simp [Transfers, Instr.mnemonic] at transfers
    · simp [Transfers, Instr.mnemonic] at transfers

/-- A transfer leaves the machine running with the same image. -/
theorem Effect.status_of_transfers {s t : State} {i : Instr} (h : Effect i s t)
    (transfers : Transfers s i) : t.status = s.status := by
  obtain ⟨f, raises, -⟩ | ⟨rfl, -⟩ | hkept := h.status_cases
  · exact absurd raises (not_raises_of_transfers transfers f)
  · simp [Transfers, Instr.mnemonic] at transfers
  · exact hkept

/-- Settles O38: the held `pc` of a step that does nothing or faults, the sources of a completed
instruction by its kind, and the fetch after a transfer out of the image. -/
theorem sequencerWritesPcFromItsFourSources : Obligations.SequencerWritesPcFromItsFourSources := by
  refine ⟨?held, ?faulted, ?completed, ?unchecked⟩
  case held =>
    intro s t ended hstep
    rw [Host.Outcome.next.inj ((step_of_ended ended).symm.trans hstep)]
  case faulted =>
    intro s t running hstep faulted
    obtain ⟨f, rfl⟩ := step_eq_raise_of_faulted running hstep faulted
    exact s.raise_pc f
  case completed =>
    intro s t i n running image_le hstep completed fetch length
    refine ⟨toNat_pc_add ((pc_add_length_le fetch length).trans image_le), ?_⟩
    have hexec : exec i s = .next t := (step_of_fetch_instr running image_le fetch).symm.trans hstep
    cases i with
    | jmp target => exact pc_of_goesTo (goesTo_jump s target) hexec
    | call target => exact pc_of_exec_call hexec completed
    | ret => exact pc_of_exec_ret hexec completed
    | bc target => cases length; exact pc_of_goesTo (branchIf_goesTo s s.carry target) hexec
    | be target =>
      cases length
      exact pc_of_goesTo (branchOn_goesTo s takenOnEqual target mem_takenOnEqual_iff) hexec
    | bne target =>
      cases length
      exact pc_of_goesTo (branchOn_goesTo s takenOnNotEqual target mem_takenOnNotEqual_iff) hexec
    | bg target =>
      cases length
      exact pc_of_goesTo (branchOn_goesTo s takenOnGreater target mem_takenOnGreater_iff) hexec
    | bge target =>
      cases length
      exact pc_of_goesTo (branchOn_goesTo s takenOnGreaterOrEqual target mem_takenOnGreaterOrEqual_iff) hexec
    | bl target =>
      cases length
      exact pc_of_goesTo (branchOn_goesTo s takenOnLess target mem_takenOnLess_iff) hexec
    | ble target =>
      cases length
      exact pc_of_goesTo (branchOn_goesTo s takenOnLessOrEqual target mem_takenOnLessOrEqual_iff) hexec
    | _ =>
      exact (effect_of_exec hexec).pc_of_sequential completed length
        (by simp [Instr.mnemonic, transferMnemonics])
  case unchecked =>
    intro s i running image_le fetch transfers
    obtain ⟨t, hexec, heff⟩ := exec_hasEffect i s
    have running' : t.status = .running := (heff.status_of_transfers transfers).trans running
    refine ⟨t, (step_of_fetch_instr running image_le fetch).trans hexec, running', ?_⟩
    rw [← heff.code_eq] at image_le ⊢
    exact stopsWith_of_pc_outside running' image_le

end Sys2Proof.Proofs
end

section
/-! Who writes each piece of state: registers, flags, cells and frames (spec/10_state.md sections 1, 3 and 4,
spec/20_memory.md sections 1 and 4). -/

namespace Sys2Proof.Proofs

open Sys2Proof.Machine Sys2Proof.Safety

/-- Where no fault changes what is looked at, a step that changes it executed an instruction. -/
theorem fetched_of_step_ne {α : Type} (look : State → α) (held : ∀ s f, look (s.raise f) = look s)
    {s t : State} (h : step s = .next t) (changed : look t ≠ look s) :
    ∃ i, s.fetch = .instr i ∧ Effect i s t := by
  obtain ⟨-, rfl⟩ | ⟨-, -, ⟨i, fetch, hexec⟩ | ⟨byte, -, rfl⟩ | ⟨-, rfl⟩⟩ := step_cases h
  · exact absurd rfl changed
  · exact ⟨i, fetch, effect_of_exec hexec⟩
  · exact absurd (held s _) changed
  · exact absurd (held s _) changed

section Writers

variable {i : Instr} {s t : State}

/-! ## Registers (R10, R11) -/

theorem readReg_writePlace_cases (s : State) (dst : Place) (v : Word) (r : Reg) :
    dst = .reg r ∨ (s.writePlace dst v).readReg r = s.readReg r := by
  cases dst with
  | cell addr => exact .inr (State.readReg_of_regs_eq (s.writeCell_regs addr v) r)
  | reg ra =>
    by_cases h : r = ra
    · exact .inl (h ▸ rfl)
    · exact .inr ((s.readReg_writeReg ra r v).trans (if_neg h))

theorem Effect.readReg_cases (h : Effect i s t) (r : Reg) :
    i = .ret ∨ destReg i = some r ∨ t.readReg r = s.readReg r := by
  cases h with
  | ret f rest returns => exact .inl returns
  | write dst v len writes | arith dst v len writes =>
    obtain rfl | kept := readReg_writePlace_cases s dst _ r
    · exact .inr (.inl writes)
    · exact .inr (.inr kept)
  | fault | compare | jump | skip | call | halt =>
    exact .inr (.inr (State.readReg_of_regs_eq rfl r))

/-! ## Flags (R17 to R20) -/

theorem Effect.cmp_cases (h : Effect i s t) :
    (i.mnemonic = "cmp" ∧ t.cmp ≠ .none) ∨ t.cmp = s.cmp := by
  cases h with
  | compare a b len compares => exact .inl ⟨compares, compareSigned_ne_none a b⟩
  | write dst v | arith dst v => exact .inr (by rw [State.advance_cmp, State.writePlace_cmp])
  | fault | jump | skip | call | ret | halt => exact .inr rfl

theorem Effect.carry_cases (h : Effect i s t) :
    i.mnemonic ∈ ["add", "sub", "mul", "div", "neg"] ∨ t.carry = s.carry := by
  cases h with
  | arith dst e len writes arithmetic => exact .inl arithmetic
  | write dst v => exact .inr (by rw [State.advance_carry, State.writePlace_carry])
  | fault | compare | jump | skip | call | ret | halt => exact .inr rfl

/-! ## Cells (R30, R37) -/

theorem readCell_writePlace_cases (s : State) (dst : Place) (v a : Word) :
    dst = .cell a ∨ (s.writePlace dst v).readCell a = s.readCell a := by
  cases dst with
  | reg ra => exact .inr (State.readCell_of_mem_eq (s.writeReg_mem ra v) a)
  | cell addr =>
    by_cases h : a = addr
    · exact .inl (h ▸ rfl)
    · exact .inr ((s.readCell_writeCell addr v a).trans (if_neg h))

theorem Effect.readCell_cases (h : Effect i s t) (a : Word) :
    WritesAt i (.cell a) ∨ t.readCell a = s.readCell a := by
  cases h with
  | write dst v len writes | arith dst v len writes =>
    obtain rfl | kept := readCell_writePlace_cases s dst _ a
    · exact .inl writes
    · exact .inr kept
  | fault | compare | jump | skip | call | ret | halt =>
    exact .inr (State.readCell_of_mem_eq rfl a)

/-! ## Frames (R21, R150) -/

theorem Effect.frames_cases (h : Effect i s t) :
    (∃ target, i = .call target ∧ t.frames = ⟨s.regs, s.nextPc 3⟩ :: s.frames) ∨
      (i = .ret ∧ ∃ f, s.frames = f :: t.frames) ∨ t.frames = s.frames := by
  cases h with
  | call target calls => exact .inl ⟨target, calls, rfl⟩
  | ret f rest returns frames => exact .inr (.inl ⟨returns, f, frames⟩)
  | write dst v | arith dst v =>
    exact .inr (.inr (by rw [State.advance_frames, State.writePlace_frames]))
  | fault | compare | jump | skip | halt => exact .inr (.inr rfl)

end Writers

/-! ## The obligations -/

/-- Settles O40, from what an instruction can do to a register. -/
theorem registersChangeOnlyByDestinationsAndReturn :
    Obligations.RegistersChangeOnlyByDestinationsAndReturn := by
  intro s t r hstep changed
  obtain ⟨i, fetch, heff⟩ := fetched_of_step_ne (·.readReg r) (fun _ _ => rfl) hstep changed
  obtain rfl | dest | kept := heff.readReg_cases r
  · exact .inl fetch
  · exact .inr ⟨i, fetch, dest⟩
  · exact absurd kept changed

/-- Settles O41: only `cmp` writes the comparison state, and no signed order is `None`. -/
theorem onlyCompareWritesTheComparisonState : Obligations.OnlyCompareWritesTheComparisonState := by
  intro s t hstep
  have compared (changed : t.cmp ≠ s.cmp) :
      ∃ i, s.fetch = .instr i ∧ i.mnemonic = "cmp" ∧ t.cmp ≠ .none := by
    obtain ⟨i, fetch, heff⟩ := fetched_of_step_ne State.cmp (fun _ _ => rfl) hstep changed
    obtain ⟨compares, some_order⟩ | kept := heff.cmp_cases
    · exact ⟨i, fetch, compares, some_order⟩
    · exact absurd kept changed
  refine ⟨fun changed => ?_, fun after => ?_⟩
  · obtain ⟨i, fetch, compares, -⟩ := compared changed
    exact ⟨i, fetch, compares⟩
  · by_contra before
    obtain ⟨-, -, -, some_order⟩ := compared (after ▸ Ne.symm before)
    exact some_order after

/-- Settles O42, from what an instruction can do to `carry`. -/
theorem onlyArithmeticWritesTheCarryFlag : Obligations.OnlyArithmeticWritesTheCarryFlag := by
  intro s t hstep changed
  obtain ⟨i, fetch, heff⟩ := fetched_of_step_ne State.carry (fun _ _ => rfl) hstep changed
  obtain arithmetic | kept := heff.carry_cases
  · exact ⟨i, fetch, arithmetic⟩
  · exact absurd kept changed

/-- Settles O43, from what an instruction can do to a cell. -/
theorem cellsChangeOnlyAtTheAddressAStoreNames :
    Obligations.CellsChangeOnlyAtTheAddressAStoreNames := by
  intro s t a hstep changed
  obtain ⟨i, fetch, heff⟩ := fetched_of_step_ne (·.readCell a) (fun _ _ => rfl) hstep changed
  obtain (⟨ra, rfl⟩ | rfl | rfl) | kept := heff.readCell_cases a
  · exact .inl ⟨ra, fetch⟩
  · exact .inr (.inl fetch)
  · exact .inr (.inr fetch)
  · exact absurd kept changed

/-- Settles O44, from what an instruction can do to the frames. -/
theorem framesChangeOnlyByCallAndReturn : Obligations.FramesChangeOnlyByCallAndReturn := by
  intro s t hstep changed
  obtain ⟨i, fetch, heff⟩ := fetched_of_step_ne State.frames (fun _ _ => rfl) hstep changed
  obtain ⟨target, rfl, pushed⟩ | ⟨rfl, f, popped⟩ | kept := heff.frames_cases
  · exact .inl ⟨target, fetch, by rw [pushed, List.tail_cons]⟩
  · exact .inr ⟨fetch, by rw [popped, List.tail_cons]⟩
  · exact absurd kept changed

end Sys2Proof.Proofs
end

section
/-! The invariant of the machine, clause by clause: every step keeps it (spec/10_state.md R22 to R28). -/

namespace Sys2Proof.Proofs

open Sys2Proof.Machine Sys2Proof.Safety

/-! ## The fault latches (R24, R25, R170) -/

theorem latchesAgree_congr {s t : State} (status : t.status = s.status) (code : t.errCode = s.errCode)
    (info : t.errInfo = s.errInfo) (h : LatchesAgree s) : LatchesAgree t :=
  ⟨by rw [status, code]; exact h.faulted_iff, by rw [code, info]; exact h.unknown_info,
    by rw [code, info]; exact h.shift_info, by rw [code, info]; exact h.reserved_info,
    by rw [code, info]; exact h.other_info⟩

/-- A running machine holds no fault code, so it may halt with its latches as they are. -/
theorem latchesAgree_halted {s : State} (running : s.status = .running) (h : LatchesAgree s) :
    LatchesAgree { s with status := .halted } := by
  have no_code : ¬ s.errCode ≠ 0#3 := by simp [← h.faulted_iff, running]
  exact ⟨iff_of_false Status.noConfusion no_code, h.unknown_info, h.shift_info, h.reserved_info,
    h.other_info⟩

/-- The information that a fault carries is one that its cause can leave. -/
def InfoAgrees : Fault → Prop
  | .unknownOpcode byte _ => byte = 0x00#8 ∨ 0x31#8 < byte
  | .shiftAmountOutOfRange amount _ => 15 < amount.toNat
  | .unspecifiedInstruction byte _ => byte = 0x2D#8 ∨ byte = 0x2E#8
  | .divisionByZero | .stackOverflow | .stackUnderflow | .codeOutOfBounds => True

theorem infoAgrees_of_raises {i : Instr} {s : State} {f : Fault} (h : Raises i s f) : InfoAgrees f := by
  cases f with
  | divisionByZero | stackOverflow | stackUnderflow | codeOutOfBounds => trivial
  | unknownOpcode byte pc => exact h.elim
  | shiftAmountOutOfRange amount pc =>
    obtain ⟨-, out_of_range, -⟩ := h
    exact out_of_range
  | unspecifiedInstruction byte pc =>
    obtain ⟨reserved, -⟩ := h
    exact reserved.imp And.right And.right

theorem latchesAgree_raise (s : State) {f : Fault} (info : InfoAgrees f) :
    LatchesAgree (s.raise f) := by
  cases f with
  | unknownOpcode byte pc =>
    have small : (byte.setWidth 16).toNat = byte.toNat := BitVec.toNat_setWidth_of_le (by decide)
    have invalid : byte.toNat = 0 ∨ 0x31 < byte.toNat ∧ byte.toNat < 256 :=
      info.imp (congrArg BitVec.toNat) fun above => ⟨above, byte.isLt⟩
    constructor <;> simp [errCodeOf, errInfoOf, small, invalid]
  | shiftAmountOutOfRange amount pc =>
    have out_of_range : 15 < amount.toNat := info
    constructor <;> simp [errCodeOf, errInfoOf, out_of_range]
  | unspecifiedInstruction byte pc =>
    have reserved : byte.setWidth 16 = 0x2D#16 ∨ byte.setWidth 16 = 0x2E#16 :=
      info.imp (congrArg (BitVec.setWidth 16)) (congrArg (BitVec.setWidth 16))
    constructor <;> simp [errCodeOf, errInfoOf, reserved]
  | divisionByZero | stackOverflow | stackUnderflow | codeOutOfBounds =>
    constructor <;> simp [errCodeOf, errInfoOf]

theorem inv_raise {s : State} (inv : Inv s) {f : Fault} (info : InfoAgrees f) : Inv (s.raise f) :=
  ⟨inv.pc_le, inv.depth_le, inv.image_le, inv.ret_range, inv.mem_wf, latchesAgree_raise s info⟩

/-! ## What an instruction does to each clause (R28) -/

theorem nextPc_le {s : State} {len : Nat} (fits : s.pc.toNat + len ≤ 65536) :
    (s.nextPc len).toNat ≤ 65536 :=
  (toNat_pc_add fits).le.trans fits

theorem zero_extended_le (target : Word) : (target.setWidth 17).toNat ≤ 65536 := by
  rw [toNat_zero_extended]
  exact target.isLt.le

section Clauses

variable {i : Instr} {s t : State}

/-- The instruction ends at 65536 or before, as a fetched one does in an image of the domain. -/
def Fits (s : State) (i : Instr) : Prop := ∀ n, instrLength i = some n → s.pc.toNat + n ≤ 65536

theorem Effect.pc_le (h : Effect i s t) (inv : Inv s) (fits : Fits s i) : t.pc.toNat ≤ 65536 := by
  cases h with
  | fault f => exact inv.pc_le
  | write dst v len writes length | arith dst v len writes arithmetic length =>
    rw [State.advance_pc, State.nextPc, State.writePlace_pc]
    exact nextPc_le (fits len length)
  | compare a b len compares length => exact nextPc_le (s := s) (fits len length)
  | skip branches length => exact nextPc_le (s := s) (fits 3 length)
  | halt halts => exact nextPc_le (s := s) (fits 1 (halts ▸ rfl))
  | jump target | call target => exact zero_extended_le target
  | ret f rest returns frames =>
    obtain ⟨-, ret_le⟩ := inv.ret_range f (frames ▸ List.mem_cons_self)
    exact ret_le

theorem Effect.depth_le (h : Effect i s t) (inv : Inv s) : t.depth ≤ 1000 := by
  cases h with
  | call target calls room => exact Nat.succ_le_of_lt room
  | ret f rest returns frames =>
    have depth_le : s.frames.length ≤ 1000 := inv.depth_le
    rw [frames, List.length_cons] at depth_le
    exact (Nat.le_succ _).trans depth_le
  | write dst v | arith dst v =>
    rw [State.depth, State.advance_frames, State.writePlace_frames]
    exact inv.depth_le
  | fault | compare | jump | skip | halt => exact inv.depth_le

theorem Effect.ret_range (h : Effect i s t) (inv : Inv s) (fits : Fits s i) :
    ∀ f ∈ t.frames, 3 ≤ f.ret.toNat ∧ f.ret.toNat ≤ 65536 := by
  obtain ⟨target, rfl, pushed⟩ | ⟨-, f, popped⟩ | kept := h.frames_cases
  · rw [pushed, List.forall_mem_cons]
    have three_le : 3 ≤ (s.nextPc 3).toNat :=
      (Nat.le_add_left 3 _).trans (toNat_pc_add (fits 3 rfl)).ge
    exact ⟨⟨three_le, nextPc_le (fits 3 rfl)⟩, inv.ret_range⟩
  · exact fun g hg => inv.ret_range g (popped ▸ List.mem_cons_of_mem f hg)
  · rw [kept]
    exact inv.ret_range

theorem Effect.mem_wf (h : Effect i s t) (inv : Inv s) : Memory.wf t.mem = true := by
  cases h with
  | write dst v | arith dst v => exact State.writePlace_wf inv.mem_wf dst _
  | fault | compare | jump | skip | call | ret | halt => exact inv.mem_wf

theorem Effect.latches (h : Effect i s t) (inv : Inv s) (running : s.status = .running) :
    LatchesAgree t := by
  cases h with
  | fault f raises => exact latchesAgree_raise s (infoAgrees_of_raises raises)
  | halt =>
    exact latchesAgree_congr (s := { s with status := .halted }) rfl rfl rfl
      (latchesAgree_halted running inv.latches)
  | write dst v | arith dst v =>
    exact latchesAgree_congr (by rw [State.advance_status, State.writePlace_status])
      (by rw [State.advance_errCode, State.writePlace_errCode])
      (by rw [State.advance_errInfo, State.writePlace_errInfo]) inv.latches
  | compare | jump | skip | call | ret => exact latchesAgree_congr (s := s) rfl rfl rfl inv.latches

theorem Effect.inv (h : Effect i s t) (inv : Inv s) (running : s.status = .running)
    (fits : Fits s i) : Inv t :=
  ⟨h.pc_le inv fits, h.depth_le inv, h.code_eq ▸ inv.image_le, h.ret_range inv fits, h.mem_wf inv,
    h.latches inv running⟩

end Clauses

/-! ## Every step -/

theorem invalid_of_decode_unknownOpcode {bytes : List Byte} {byte : Byte}
    (h : decode bytes = .unknownOpcode byte) : byte = 0x00#8 ∨ 0x31#8 < byte := by
  cases bytes with
  | nil => cases h
  | cons op operands =>
    obtain ⟨no_layout, rfl⟩ := (decode_cons_unknown_iff op operands byte).1 h
    exact (layoutOf_eq_none_iff op).1 no_layout

/-- Settles O52: clause by clause over the effects of the fetched instruction, which lies inside the
image; the faults of a fetch leave information of their own. -/
theorem everyStepKeepsTheInvariant : Obligations.EveryStepKeepsTheInvariant := by
  intro s t inv hstep
  obtain ⟨-, rfl⟩ | ⟨running, image_le, ⟨i, fetch, hexec⟩ | ⟨byte, fetch, rfl⟩ | ⟨-, rfl⟩⟩ :=
    step_cases hstep
  · exact inv
  · exact (effect_of_exec hexec).inv inv running fun n length =>
      (pc_add_length_le fetch length).trans image_le
  · exact inv_raise inv (invalid_of_decode_unknownOpcode fetch)
  · exact inv_raise inv trivial

end Sys2Proof.Proofs
end

section
/-! Reset, runs and sequences of control inputs: what every step and every reset keep, the invariant among
it, and the run that a reset begins again (spec/40_step.md R77 and R82, spec/70_reset_and_hazards.md R190). -/

namespace Sys2Proof.Proofs

open Sys2Proof.Machine Sys2Proof.Safety

/-! ## Reset (R27, R190, R194) -/

theorem inv_boot {image : List Byte} (image_le : image.length ≤ 65536) : Inv (State.boot image) where
  pc_le := Nat.zero_le 65536
  depth_le := Nat.zero_le 1000
  image_le := image_le
  ret_range := fun _ h => (List.not_mem_nil h).elim
  mem_wf := State.reset_mem_wf
  latches := by constructor <;> simp [State.boot, State.reset]

theorem assertReset_eq_boot (s : State) : s.assertReset = State.boot s.code := rfl

/-- Settles O51: the reset state is the boot with the empty image. -/
theorem invariantHoldsAtReset : Obligations.InvariantHoldsAtReset :=
  inv_boot (image := []) (Nat.zero_le 65536)

/-- Settles O50: the reset input is the boot with the image that stands in memory. -/
theorem assertingResetKeepsOnlyTheCodeImage : Obligations.AssertingResetKeepsOnlyTheCodeImage :=
  fun s => ⟨assertReset_eq_boot s, rfl, fun image_le => inv_boot image_le⟩

/-- Settles O49: every field at its constant, and the register file and data memory hold one value. -/
theorem resetHoldsTheValuesOfTheTable : Obligations.ResetHoldsTheValuesOfTheTable := by
  have registers (r : Reg) : State.reset.readReg r = 0x0000#16 := Vector.getElem_replicate r.isLt
  exact ⟨rfl, rfl, rfl, rfl, registers, fun _ => rfl, rfl, rfl, rfl, rfl⟩

/-! ## Runs and sequences of inputs (R77, R82) -/

/-- What every step keeps holds after any number of steps. -/
theorem run_keeps {P : State → Prop} (keeps : ∀ s, P s → ∃ t, step s = .next t ∧ P t) (n : Nat)
    {s : State} (h : P s) : ∃ t, Host.Core.run Sys2Proof.core n s = .next t ∧ P t := by
  induction n generalizing s with
  | zero => exact ⟨s, rfl, h⟩
  | succ n ih =>
    obtain ⟨t, hstep, ht⟩ := keeps s h
    rw [core_run_succ_of_next n hstep]
    exact ih ht

/-- What every step and every reset keep holds after any sequence of inputs. -/
theorem respondAll_keeps {P : State → Prop} (keeps : ∀ s, P s → ∃ t, step s = .next t ∧ P t)
    (resets : ∀ s, P s → P s.assertReset) (inputs : List Inputs) {s : State} (h : P s) :
    ∃ t, respondAll inputs s = .next t ∧ P t := by
  induction inputs generalizing s with
  | nil => exact ⟨s, rfl, h⟩
  | cons first rest ih =>
    obtain ⟨t, hfirst, ht⟩ : ∃ t, respond first s = .next t ∧ P t := by
      obtain ⟨_ | _, _ | _⟩ := first
      · exact ⟨s, respond_idle s, h⟩
      · exact keeps s h
      · exact ⟨_, respond_reset false s, resets s h⟩
      · exact ⟨_, respond_reset true s, resets s h⟩
    rw [respondAll_cons_of_next rest hfirst]
    exact ih ht

theorem step_keeps_image {image : List Byte} (image_le : image.length ≤ 65536) (s : State)
    (h : s.code = image) : ∃ t, step s = .next t ∧ t.code = image := by
  subst h
  obtain ⟨t, hstep⟩ := step_answers image_le
  exact ⟨t, hstep, step_code_eq hstep⟩

theorem step_keeps_inv_and_image {image : List Byte} (s : State) (h : Inv s ∧ s.code = image) :
    ∃ t, step s = .next t ∧ Inv t ∧ t.code = image := by
  obtain ⟨inv, rfl⟩ := h
  obtain ⟨t, hstep⟩ := step_answers inv.image_le
  exact ⟨t, hstep, everyStepKeepsTheInvariant s t inv hstep, step_code_eq hstep⟩

/-- Settles O53: the boot meets the invariant and every step keeps it. -/
theorem everyRunFromAnyImageStaysInTheInvariant :
    Obligations.EveryRunFromAnyImageStaysInTheInvariant :=
  fun _ n image_le => run_keeps step_keeps_inv_and_image n ⟨inv_boot image_le, rfl⟩

/-- Settles O54: the interface decides on `reset` first. -/
theorem resetHasPriorityOverAStepRequest : Obligations.ResetHasPriorityOverAStepRequest :=
  fun s => ⟨fun stepReq => respond_reset stepReq s, respond_stepReq s, respond_idle s⟩

/-- Settles O55: the inputs before the reset are answered by some state with the same image, and the reset
keeps nothing else of it. -/
theorem resetBeginsTheSameRunAgain : Obligations.ResetBeginsTheSameRunAgain := by
  intro before after stepReq s image_le
  obtain ⟨t, hbefore, hcode⟩ :=
    respondAll_keeps (step_keeps_image image_le) (fun _ h => h) before rfl
  calc respondAll (before ++ ⟨true, stepReq⟩ :: after) s
      = respondAll (⟨true, stepReq⟩ :: after) t := respondAll_append_of_next _ hbefore
    _ = respondAll after t.assertReset := respondAll_cons_of_next after (respond_reset stepReq t)
    _ = respondAll after (State.boot s.code) := by rw [assertReset_eq_boot, hcode]

/-- Settles O56: a step keeps the invariant and the image, and so does a reset. -/
theorem everyInputSequenceStaysInTheInvariant : Obligations.EveryInputSequenceStaysInTheInvariant := by
  intro inputs s inv
  refine respondAll_keeps step_keeps_inv_and_image (fun u h => ?_) inputs ⟨inv, rfl⟩
  obtain ⟨hinv, hcode⟩ := h
  exact ⟨inv_boot hinv.image_le, hcode⟩

end Sys2Proof.Proofs
end

section
/-! The canonical form of data memory, the model's own (assumption 17): one list for one memory. -/

namespace Sys2Proof.Proofs

open Sys2Proof.Machine Sys2Proof.Safety

/-- The form of a memory list that begins with an entry. -/
theorem wfFrom_cons_iff {lo a : Nat} {v : Word} {rest : Memory} :
    Memory.wfFrom lo ((a, v) :: rest) = true ↔
      lo ≤ a ∧ a < 65536 ∧ v ≠ Config.initCell ∧ Memory.wfFrom (a + 1) rest = true := by
  simp only [Memory.wfFrom, Bool.and_eq_true, decide_eq_true_eq, and_assoc]
  rfl

theorem read_head (a : Nat) (v : Word) (rest : Memory) : Memory.read ((a, v) :: rest) a = v := by
  rw [Memory.read_entry, if_pos rfl]

/-- A list that lists a cell below all cells of another one does not read like it. -/
theorem read_ne_of_lower_head {lo a : Nat} {v : Word} {rest other : Memory} (ha : a < lo)
    (hv : v ≠ Config.initCell) (wf : Memory.wfFrom lo other = true) :
    Memory.read ((a, v) :: rest) a ≠ Memory.read other a := by
  rw [read_head, Memory.read_below wf ha]
  exact hv

theorem eq_of_read_eq {lo : Nat} {m n : Memory} (hm : Memory.wfFrom lo m = true)
    (hn : Memory.wfFrom lo n = true)
    (alike : ∀ a, a < 65536 → Memory.read m a = Memory.read n a) : m = n := by
  induction m generalizing lo n with
  | nil =>
    cases n with
    | nil => rfl
    | cons e n =>
      obtain ⟨b, w⟩ := e
      obtain ⟨-, hb, hw, -⟩ := wfFrom_cons_iff.1 hn
      exact absurd (alike b hb).symm (read_ne_of_lower_head (lo := b + 1) (by omega) hw rfl)
  | cons d m ih =>
    obtain ⟨a, v⟩ := d
    obtain ⟨-, ha, hv, hm⟩ := wfFrom_cons_iff.1 hm
    cases n with
    | nil => exact absurd (alike a ha) (read_ne_of_lower_head (lo := a + 1) (by omega) hv rfl)
    | cons e n =>
      obtain ⟨b, w⟩ := e
      obtain ⟨-, hb, hw, hn'⟩ := wfFrom_cons_iff.1 hn
      obtain hlt | rfl | hgt := Nat.lt_trichotomy a b
      · exact absurd (alike a ha)
          (read_ne_of_lower_head hlt hv (wfFrom_cons_iff.2 ⟨le_rfl, hb, hw, hn'⟩))
      · obtain rfl : v = w := by simpa only [read_head] using alike a ha
        rw [ih hm hn' fun c hc => ?_]
        by_cases hca : c < a + 1
        · rw [Memory.read_below hm hca, Memory.read_below hn' hca]
        · have hne : c ≠ a := by omega
          simpa only [Memory.read_entry, if_neg hne] using alike c hc
      · exact absurd (alike b hb).symm
          (read_ne_of_lower_head hgt hw (wfFrom_cons_iff.2 ⟨le_rfl, ha, hv, hm⟩))

/-- Settles O48, by induction on the lists: the lower of two different first addresses would be read
differently. -/
theorem canonicalMemoriesThatReadAlikeAreEqual : Obligations.CanonicalMemoriesThatReadAlikeAreEqual :=
  fun _ _ hm hn alike => eq_of_read_eq hm hn alike

end Sys2Proof.Proofs
end

section
/-! Who reads each piece of state. Replacing the frames, the code image or a flag before an instruction is
replacing it after, where the instruction's family neither reads nor writes it (spec/10_state.md sections 3
and 4, spec/20_memory.md R32). -/

namespace Sys2Proof.Proofs

open Sys2Proof.Machine Sys2Proof.Safety

/-! ## Replacements -/

/-- A replacement of the fields that only some families of instructions read or write. -/
structure Replacement where
  /-- of the call frames -/
  frames : List Frame → List Frame
  /-- of the code image -/
  code : List Byte → List Byte
  /-- of the comparison state -/
  cmp : CmpState → CmpState
  /-- of the carry flag -/
  carry : Bool → Bool

/-- The replacement that replaces nothing. -/
def Replacement.keep : Replacement := ⟨id, id, id, id⟩

/-- The state with its fields replaced. -/
def Replacement.apply (f : Replacement) (s : State) : State :=
  { s with
    frames := f.frames s.frames, code := f.code s.code, cmp := f.cmp s.cmp, carry := f.carry s.carry }

/-- Replacing before `run` is replacing after it. -/
def PassesThrough (f : Replacement) (run : State → Host.Outcome State Fault Refusal) : Prop :=
  ∀ s t, run s = .next t → run (f.apply s) = .next (f.apply t)

/-- A replacement leaves alone the fields that instruction `i` reads or writes. -/
structure Avoids (f : Replacement) (i : Instr) : Prop where
  /-- `call` and `ret` read and write the frames -/
  frames : i.mnemonic ∈ ["call", "ret"] → f.frames = id
  /-- the six branches read the comparison state and `cmp` writes it -/
  cmp : i.mnemonic ∈ ["be", "bne", "bg", "bge", "bl", "ble", "cmp"] → f.cmp = id
  /-- `bc` reads `carry` and the five arithmetic mnemonics write it -/
  carry : i.mnemonic ∈ ["bc", "add", "sub", "mul", "div", "neg"] → f.carry = id

section Families

variable (f : Replacement) (s : State)

/-! ## The operations of the state under a replacement -/

@[simp] theorem readReg_apply (r : Reg) : (f.apply s).readReg r = s.readReg r := rfl

@[simp] theorem readSource_apply (src : Source) : (f.apply s).readSource src = s.readSource src := by
  cases src <;> rfl

@[simp] theorem readPlace_apply (p : Place) : (f.apply s).readPlace p = s.readPlace p := by
  cases p <;> rfl

@[simp] theorem pc_apply : (f.apply s).pc = s.pc := rfl

@[simp] theorem writeReg_apply (r : Reg) (v : Word) :
    (f.apply s).writeReg r v = f.apply (s.writeReg r v) := rfl

@[simp] theorem writePlace_apply (p : Place) (v : Word) :
    (f.apply s).writePlace p v = f.apply (s.writePlace p v) := by
  cases p <;> rfl

@[simp] theorem advance_apply (len : Nat) : (f.apply s).advance len = f.apply (s.advance len) := rfl

@[simp] theorem jump_apply (target : Word) : (f.apply s).jump target = f.apply (s.jump target) := rfl

@[simp] theorem raise_apply (fault : Fault) : (f.apply s).raise fault = f.apply (s.raise fault) := rfl

variable {f}

theorem frames_apply (leaves : f.frames = id) : (f.apply s).frames = s.frames :=
  congrFun leaves s.frames

theorem depth_apply (leaves : f.frames = id) : (f.apply s).depth = s.depth :=
  congrArg List.length (frames_apply s leaves)

theorem cmp_apply (leaves : f.cmp = id) : (f.apply s).cmp = s.cmp := congrFun leaves s.cmp

theorem carry_apply (leaves : f.carry = id) : (f.apply s).carry = s.carry := congrFun leaves s.carry

theorem setCmp_apply (leaves : f.cmp = id) (c : CmpState) :
    { f.apply s with cmp := c } = f.apply { s with cmp := c } := by
  simp [Replacement.apply, leaves]

theorem setCarry_apply (leaves : f.carry = id) (c : Bool) :
    { f.apply s with carry := c } = f.apply { s with carry := c } := by
  simp [Replacement.apply, leaves]

/-! ## The families -/

/-- An operation that always answers `g` of the state passes a replacement that commutes with `g`. -/
theorem passesThrough_of_commutes {g : State → State}
    {run : State → Host.Outcome State Fault Refusal} (answers : ∀ s, run s = .next (g s))
    (commutes : ∀ s, g (f.apply s) = f.apply (g s)) : PassesThrough f run := by
  intro s t h
  obtain rfl := Host.Outcome.next.inj ((answers s).symm.trans h)
  rw [answers, commutes]

theorem moveTo_passesThrough (dst : Place) (src : Source) (len : Nat) :
    PassesThrough f (moveTo dst src len) :=
  passesThrough_of_commutes (moveTo_eq dst src len) fun s => by
    rw [readSource_apply, writePlace_apply, advance_apply]

theorem bitwise_passesThrough (op : Word → Word → Word) (ra : Reg) (src : Source) (len : Nat) :
    PassesThrough f (bitwise op ra src len) :=
  passesThrough_of_commutes (bitwise_eq op ra src len) fun s => by
    rw [readReg_apply, readSource_apply, writeReg_apply, advance_apply]

theorem complement_passesThrough (dst : Place) (len : Nat) : PassesThrough f (complement dst len) :=
  passesThrough_of_commutes (complement_eq dst len) fun s => by
    rw [readPlace_apply, writePlace_apply, advance_apply]

theorem shift_passesThrough (op : Word → Nat → Word) (ra : Reg) (src : Source) (len : Nat) :
    PassesThrough f (shift op ra src len) := by
  intro s t h
  have same : (f.apply s).readSource src = s.readSource src := readSource_apply f s src
  by_cases hr : (s.readSource src).toNat ≤ 15
  · obtain rfl := Host.Outcome.next.inj ((shift_in_range hr op ra len).symm.trans h)
    rw [shift_in_range (by rwa [same]), readReg_apply, same, writeReg_apply, advance_apply]
  · have hout := Nat.lt_of_not_le hr
    obtain rfl := Host.Outcome.next.inj ((shift_out_of_range hout op ra len).symm.trans h)
    rw [shift_out_of_range (by rwa [same]), same, pc_apply, raise_apply]

theorem compareOperands_passesThrough (leaves : f.cmp = id) (ra : Reg) (src : Source) (len : Nat) :
    PassesThrough f (compareOperands ra src len) :=
  passesThrough_of_commutes (compareOperands_eq ra src len) fun s => by
    rw [readReg_apply, readSource_apply, setCmp_apply s leaves, advance_apply]

theorem commitArith_passesThrough (leaves : f.carry = id) (dst : Place) (e : Int) (len : Nat) :
    PassesThrough f (commitArith dst e len) :=
  passesThrough_of_commutes (commitArith_eq dst e len) fun s => by
    rw [writePlace_apply, setCarry_apply _ leaves, advance_apply]

theorem arith_passesThrough (leaves : f.carry = id) (op : Int → Int → Int) (ra : Reg) (src : Source)
    (len : Nat) : PassesThrough f (arith op ra src len) := by
  intro s t h
  rw [arith_eq, readReg_apply, readSource_apply]
  exact commitArith_passesThrough leaves _ _ _ s t h

theorem negate_passesThrough (leaves : f.carry = id) (dst : Place) (len : Nat) :
    PassesThrough f (negate dst len) := by
  intro s t h
  rw [negate_eq, readPlace_apply]
  exact commitArith_passesThrough leaves _ _ _ s t h

theorem divide_passesThrough (leaves : f.carry = id) (ra : Reg) (src : Source) (len : Nat) :
    PassesThrough f (divide ra src len) := by
  intro s t h
  have same : (f.apply s).readSource src = s.readSource src := readSource_apply f s src
  by_cases hz : s16 (s.readSource src) = 0
  · obtain rfl := Host.Outcome.next.inj ((divide_zero hz ra len).symm.trans h)
    exact divide_zero (same ▸ hz) ra len
  · rw [divide_nonzero (same ▸ hz)]
    exact arith_passesThrough leaves _ _ _ _ s t ((divide_nonzero hz ra len).symm.trans h)

theorem branchIf_passesThrough {taken : State → Bool} (same : ∀ s, taken (f.apply s) = taken s)
    (target : Word) : PassesThrough f fun s => branchIf (taken s) target s :=
  passesThrough_of_commutes (fun s => branchIf_eq (taken s) target s) fun s => by
    rw [same, jump_apply, advance_apply, apply_ite f.apply]

theorem branchOn_passesThrough (leaves : f.cmp = id) (states : List CmpState) (target : Word) :
    PassesThrough f fun s => branchIf (states.contains s.cmp) target s :=
  branchIf_passesThrough (fun s => congrArg states.contains (cmp_apply s leaves)) target

theorem execCall_passesThrough (leaves : f.frames = id) (target : Word) :
    PassesThrough f (execCall target) := by
  intro s t h
  have same : (f.apply s).depth = s.depth := depth_apply s leaves
  by_cases room : s.depth < Config.maxFrames
  · obtain rfl := Host.Outcome.next.inj ((execCall_room target room).symm.trans h)
    rw [execCall_room target (same ▸ room)]
    simp [Replacement.apply, State.jump, State.nextPc, leaves]
  · obtain rfl := Host.Outcome.next.inj ((execCall_full target room).symm.trans h)
    exact execCall_full target (same ▸ room)

theorem execRet_passesThrough (leaves : f.frames = id) : PassesThrough f execRet := by
  intro s t h
  cases hf : s.frames with
  | nil =>
    obtain rfl := Host.Outcome.next.inj ((execRet_empty hf).symm.trans h)
    exact execRet_empty ((frames_apply s leaves).trans hf)
  | cons g rest =>
    obtain rfl := Host.Outcome.next.inj ((execRet_cons hf).symm.trans h)
    rw [execRet_cons ((frames_apply s leaves).trans hf)]
    simp [Replacement.apply, leaves]

end Families

/-! ## Every instruction -/

/-- A replacement that leaves alone what an instruction reads and writes passes through its meaning. -/
theorem exec_passesThrough {f : Replacement} (i : Instr) (avoids : Avoids f i) :
    PassesThrough f (exec i) :=
  match i with
  | .cpRR .. | .cpRI .. | .cpRM .. | .cpMR .. => moveTo_passesThrough _ _ _
  | .addRR .. | .addRI .. | .addRM .. | .subRR .. | .subRI .. | .subRM .. | .mulRR .. | .mulRI ..
  | .mulRM .. => arith_passesThrough (avoids.carry (by simp [Instr.mnemonic])) _ _ _ _
  | .divRR .. | .divRI .. | .divRM .. =>
    divide_passesThrough (avoids.carry (by simp [Instr.mnemonic])) _ _ _
  | .negR _ | .negM _ => negate_passesThrough (avoids.carry (by simp [Instr.mnemonic])) _ _
  | .xorRR .. | .xorRI .. | .xorRM .. | .andRR .. | .andRI .. | .andRM .. | .orRR .. | .orRI ..
  | .orRM .. => bitwise_passesThrough _ _ _ _
  | .notR _ | .notM _ => complement_passesThrough _ _
  | .shrRR .. | .shrRI .. | .shlRR .. | .shlRI .. => shift_passesThrough _ _ _ _
  | .cmpRR .. | .cmpRI .. | .cmpRM .. =>
    compareOperands_passesThrough (avoids.cmp (by simp [Instr.mnemonic])) _ _ _
  | .be target | .bne target | .bg target | .bge target | .bl target | .ble target =>
    branchOn_passesThrough (avoids.cmp (by simp [Instr.mnemonic])) _ target
  | .bc target =>
    branchIf_passesThrough (fun s => carry_apply s (avoids.carry (by simp [Instr.mnemonic]))) target
  | .jmp _ | .halt | .puts | .getc => passesThrough_of_commutes (fun _ => rfl) fun _ => rfl
  | .call target => execCall_passesThrough (avoids.frames (by simp [Instr.mnemonic])) target
  | .ret => execRet_passesThrough (avoids.frames (by simp [Instr.mnemonic]))

/-! ## The obligations -/

/-- Settles O45: of all families only `call` and `ret` read or write the frames. -/
theorem framesAreHiddenFromOtherInstructions : Obligations.FramesAreHiddenFromOtherInstructions := by
  intro i s t fs no_call no_ret h
  have avoids : Avoids { Replacement.keep with frames := fun _ => fs } i :=
    ⟨fun used => absurd used (by simp [no_call, no_ret]), fun _ => rfl, fun _ => rfl⟩
  exact exec_passesThrough i avoids s t h

/-- Settles O46: no family reads or writes the code image. -/
theorem codeImageIsInvisibleToInstructions : Obligations.CodeImageIsInvisibleToInstructions := by
  intro i s t image h
  have avoids : Avoids { Replacement.keep with code := fun _ => image } i :=
    ⟨fun _ => rfl, fun _ => rfl, fun _ => rfl⟩
  exact exec_passesThrough i avoids s t h

/-- Settles O47: the families that read a flag or write it are the ones excepted. -/
theorem flagsAreReadOnlyByTheirBranches : Obligations.FlagsAreReadOnlyByTheirBranches := by
  constructor
  · intro i s t c unused h
    have avoids : Avoids { Replacement.keep with cmp := fun _ => c } i :=
      ⟨fun _ => rfl, fun used => absurd used unused, fun _ => rfl⟩
    exact exec_passesThrough i avoids s t h
  · intro i s t c unused h
    have avoids : Avoids { Replacement.keep with carry := fun _ => c } i :=
      ⟨fun _ => rfl, fun _ => rfl, fun used => absurd used unused⟩
    exact exec_passesThrough i avoids s t h

end Sys2Proof.Proofs
end

section
/-! The arithmetic family: its law for a register and for a cell, the unsigned reading of a product, and
division (spec/42_arithmetic.md R90 to R108). -/

namespace Sys2Proof.Proofs

open Sys2Proof.Machine Sys2Proof.Safety

section Law

variable (s : State)

/-! ## The law of arithmetic (R90) -/

theorem sameControl_writePlace_carry_advance (dst : Place) (v : Word) (c : Bool) (len : Nat) :
    SameControl s (({ s.writePlace dst v with carry := c } : State).advance len) := by
  simp [SameControl]

theorem commitArith_arithReg (ra : Reg) (e : Int) (len : Nat) :
    ArithReg s (commitArith (.reg ra) e len s) ra len e := by
  refine ⟨_, wrap16 e, commitArith_eq _ e len s, wrap16_toNat e, fun r => ?_, overflows_iff e, ?_, ?_,
    sameControl_writePlace_carry_advance s (.reg ra) _ _ len, ?_⟩
  · exact (State.readReg_of_regs_eq rfl r).trans (s.readReg_writeReg ra r (wrap16 e))
  · rw [State.advance_cmp, State.writePlace_cmp]
  · exact State.readCell_of_mem_eq rfl
  · rw [State.advance_pc, State.nextPc, State.writePlace_pc]

theorem commitArith_arithCell (addr : Word) (e : Int) (len : Nat) :
    ArithCell s (commitArith (.cell addr) e len s) addr len e := by
  refine ⟨_, wrap16 e, commitArith_eq _ e len s, wrap16_toNat e, fun a => ?_, overflows_iff e, ?_, ?_,
    sameControl_writePlace_carry_advance s (.cell addr) _ _ len, ?_⟩
  · exact (State.readCell_of_mem_eq rfl a).trans (s.readCell_writeCell addr (wrap16 e) a)
  · rw [State.advance_cmp, State.writePlace_cmp]
  · exact State.readReg_of_regs_eq rfl
  · rw [State.advance_pc, State.nextPc, State.writePlace_pc]

theorem arith_arithReg (op : Int → Int → Int) (ra : Reg) (src : Source) (len : Nat) :
    ArithReg s (arith op ra src len s) ra len (op (s.readReg ra).toInt (s.readSource src).toInt) :=
  commitArith_arithReg s ra _ len

end Law

/-- Settles O2: each form is `arith` with the sum at its own source and length. -/
theorem addWritesWrappedSumAndSignedOverflow : Obligations.AddWritesWrappedSumAndSignedOverflow :=
  fun s ra =>
  ⟨fun rb => arith_arithReg s _ ra (.reg rb) 2, fun imm => arith_arithReg s _ ra (.imm imm) 4,
    fun addr => arith_arithReg s _ ra (.cell addr) 4⟩

/-- Settles O3: each form is `arith` with the difference at its own source and length. -/
theorem subWritesWrappedDifferenceAndSignedOverflow :
    Obligations.SubWritesWrappedDifferenceAndSignedOverflow := fun s ra =>
  ⟨fun rb => arith_arithReg s _ ra (.reg rb) 2, fun imm => arith_arithReg s _ ra (.imm imm) 4,
    fun addr => arith_arithReg s _ ra (.cell addr) 4⟩

/-- Settles O4: each form is `arith` with the product at its own source and length. -/
theorem mulWritesWrappedProductAndSignedOverflow :
    Obligations.MulWritesWrappedProductAndSignedOverflow := fun s ra =>
  ⟨fun rb => arith_arithReg s _ ra (.reg rb) 2, fun imm => arith_arithReg s _ ra (.imm imm) 4,
    fun addr => arith_arithReg s _ ra (.cell addr) 4⟩

/-- Settles O9: both forms are the law of arithmetic for the negation, at a register and at a cell. -/
theorem negWritesNegationAndSignedOverflow : Obligations.NegWritesNegationAndSignedOverflow := fun s =>
  ⟨fun ra => commitArith_arithReg s ra _ 2, fun addr => commitArith_arithCell s addr _ 3⟩

section Answers

variable {s t : State} {o : Host.Outcome State Fault Refusal} {ra : Reg} {len : Nat} {e : Int}

/-! ## What an answer that follows the law holds -/

theorem readReg_of_arithReg (h : ArithReg s o ra len e) (answer : o = .next t) :
    t.readReg ra = wrap16 e := by
  obtain ⟨u, v, hu, hv, hreg, -⟩ := h
  obtain rfl := Host.Outcome.next.inj (hu.symm.trans answer)
  have same : v.toNat = (wrap16 e).toNat := Int.ofNat_inj.1 (hv.trans (wrap16_toNat e).symm)
  rw [hreg ra, if_pos rfl, BitVec.eq_of_toNat_eq same]

theorem carry_of_arithReg (h : ArithReg s o ra len e) (answer : o = .next t) :
    t.carry = true ↔ e < -32768 ∨ 32767 < e := by
  obtain ⟨u, v, hu, -, -, hcarry, -⟩ := h
  obtain rfl := Host.Outcome.next.inj (hu.symm.trans answer)
  exact hcarry

theorem sameControl_of_arithReg (h : ArithReg s o ra len e) : ∃ t, o = .next t ∧ SameControl s t := by
  obtain ⟨u, -, hu, -, -, -, -, -, hcontrol, -⟩ := h
  exact ⟨u, hu, hcontrol⟩

end Answers

/-! ## The unsigned reading of a product (R92) -/

theorem wrap16_mul (a b : Word) : wrap16 (a.toInt * b.toInt) = a * b := by
  rw [wrap16, BitVec.ofInt_mul, BitVec.ofInt_toInt, BitVec.ofInt_toInt]

theorem toNat_readReg_mul {s t : State} {ra : Reg} {src : Source} {len : Nat}
    (h : arith (fun a b => a * b) ra src len s = .next t) :
    (t.readReg ra).toNat = (s.readReg ra).toNat * (s.readSource src).toNat % 65536 := by
  rw [readReg_of_arithReg (arith_arithReg s _ ra src len) h, wrap16_mul, BitVec.toNat_mul]

/-- Settles O5: modulo 65536 the signed and the unsigned product of two patterns are the same. -/
theorem mulResultIsLowHalfOfUnsignedProduct : Obligations.MulResultIsLowHalfOfUnsignedProduct :=
  fun _ _ _ =>
  ⟨fun rb h => toNat_readReg_mul (src := .reg rb) h, fun imm h => toNat_readReg_mul (src := .imm imm) h,
    fun addr h => toNat_readReg_mul (src := .cell addr) h⟩

/-! ## Division (R93, R103 to R105, R171) -/

theorem s16_eq_zero_iff (w : Word) : s16 w = 0 ↔ w = 0#16 := BitVec.toInt_inj (y := 0#16)

/-- Rounding toward zero: the quotient of the magnitudes with the product of the signs. -/
theorem exactQuotient_eq (a b : Int) :
    exactQuotient a b = a.sign * b.sign * (a.natAbs / b.natAbs : Nat) := by
  rw [exactQuotient, ← Int.sign_mul_natAbs (a.tdiv b), Int.sign_tdiv, Int.natAbs_tdiv]
  split
  · next small => simp [Nat.div_eq_of_lt small]
  · rfl

/-- The one quotient of two 16-bit numbers that does not fit in 16 bits. -/
theorem exactQuotient_overflows_iff {a b : Int} (lower : -32768 ≤ a) (upper : a ≤ 32767)
    (nonzero : b ≠ 0) :
    (exactQuotient a b < -32768 ∨ 32767 < exactQuotient a b) ↔ a = -32768 ∧ b = -1 := by
  unfold exactQuotient
  obtain rfl | rfl | large : b = 1 ∨ b = -1 ∨ 2 ≤ b.natAbs := by omega
  · rw [Int.tdiv_one]
    omega
  · rw [Int.tdiv_neg, Int.tdiv_one]
    omega
  · have halved : (a.tdiv b).natAbs ≤ a.natAbs / 2 := by
      rw [Int.natAbs_tdiv]
      exact Nat.div_le_div_left large two_pos
    omega

theorem s16_bounds (w : Word) : -32768 ≤ s16 w ∧ s16 w ≤ 32767 :=
  ⟨BitVec.le_toInt w, Int.le_of_lt_add_one (BitVec.toInt_lt (x := w))⟩

section Division

variable {s : State} {src : Source} (ra : Reg) (len : Nat)

theorem divide_stopsWith (zero : s.readSource src = 0#16) :
    StopsWith s (divide ra src len s) 1#3 0#16 := by
  rw [divide_zero ((s16_eq_zero_iff _).2 zero)]
  exact stopsWith_raise s .divisionByZero

theorem divide_arithReg (nonzero : s.readSource src ≠ 0#16) :
    ArithReg s (divide ra src len s) ra len
      (exactQuotient (s.readReg ra).toInt (s.readSource src).toInt) := by
  rw [divide_nonzero (mt (s16_eq_zero_iff _).1 nonzero)]
  exact arith_arithReg s exactQuotient ra src len

theorem divide_rounds (nonzero : s.readSource src ≠ 0#16) :
    ArithReg s (divide ra src len s) ra len
      ((s.readReg ra).toInt.sign * (s.readSource src).toInt.sign *
        ((s.readReg ra).toInt.natAbs / (s.readSource src).toInt.natAbs : Nat)) := by
  rw [← exactQuotient_eq]
  exact divide_arithReg ra len nonzero

theorem carry_of_divide {t : State} (nonzero : s.readSource src ≠ 0#16)
    (h : divide ra src len s = .next t) :
    t.carry = true ↔ s.readReg ra = 0x8000#16 ∧ s.readSource src = 0xFFFF#16 := by
  obtain ⟨lower, upper⟩ := s16_bounds (s.readReg ra)
  calc t.carry = true
      ↔ _ := carry_of_arithReg (divide_arithReg ra len nonzero) h
    _ ↔ (s.readReg ra).toInt = -32768 ∧ (s.readSource src).toInt = -1 :=
      exactQuotient_overflows_iff lower upper (mt (s16_eq_zero_iff _).1 nonzero)
    _ ↔ s.readReg ra = 0x8000#16 ∧ s.readSource src = 0xFFFF#16 :=
      and_congr (BitVec.toInt_inj (y := 0x8000#16)) (BitVec.toInt_inj (y := 0xFFFF#16))

end Division

/-- Settles O6: each form is `divide` at its own source and length. -/
theorem divWritesQuotientRoundedTowardZero : Obligations.DivWritesQuotientRoundedTowardZero :=
  fun _ ra =>
  ⟨fun rb => divide_rounds (src := .reg rb) ra 2, fun imm => divide_rounds (src := .imm imm) ra 4,
    fun addr => divide_rounds (src := .cell addr) ra 4⟩

/-- Settles O7: of all quotients of two 16-bit numbers one does not fit. -/
theorem divOverflowsOnlyForMinimumByMinusOne : Obligations.DivOverflowsOnlyForMinimumByMinusOne :=
  fun _ _ ra =>
  ⟨fun rb => carry_of_divide (src := .reg rb) ra 2, fun imm => carry_of_divide (src := .imm imm) ra 4,
    fun addr => carry_of_divide (src := .cell addr) ra 4⟩

/-- Settles O8: a zero divisor is the fault commit alone, any other follows the law of arithmetic. -/
theorem divByZeroFaultsWithNoEffect : Obligations.DivByZeroFaultsWithNoEffect := fun _ ra =>
  ⟨fun rb => ⟨divide_stopsWith (src := .reg rb) ra 2,
      fun nonzero => sameControl_of_arithReg (divide_arithReg (src := .reg rb) ra 2 nonzero)⟩,
    fun imm => ⟨divide_stopsWith (src := .imm imm) ra 4,
      fun nonzero => sameControl_of_arithReg (divide_arithReg (src := .imm imm) ra 4 nonzero)⟩,
    fun addr => ⟨divide_stopsWith (src := .cell addr) ra 4,
      fun nonzero => sameControl_of_arithReg (divide_arithReg (src := .cell addr) ra 4 nonzero)⟩⟩

end Sys2Proof.Proofs
end

section
/-! The shifts and the compare: a shift in range and out of range, and the signed order that `cmp` records
(spec/43_bitwise_shift.md R122 to R127, spec/44_compare_branch.md R130 to R133). -/

namespace Sys2Proof.Proofs

open Sys2Proof.Machine Sys2Proof.Safety

section Shifts

variable {s : State} {src : Source} (ra : Reg) (len : Nat)

/-! ## The shifts (R122) -/

theorem shift_writesReg (op : Word → Nat → Word) (in_range : (s.readSource src).toNat ≤ 15) :
    WritesReg s (shift op ra src len s) ra len (op (s.readReg ra) (s.readSource src).toNat) := by
  rw [shift_in_range in_range]
  exact writesReg_writeReg_advance s ra len _

theorem shr_writesReg (in_range : (s.readSource src).toNat ≤ 15) :
    ∃ v : Word, v.toNat = (s.readReg ra).toNat / 2 ^ (s.readSource src).toNat ∧
      WritesReg s (shift (fun v n => v >>> n) ra src len s) ra len v :=
  ⟨_, by rw [BitVec.toNat_ushiftRight, Nat.shiftRight_eq_div_pow], shift_writesReg ra len _ in_range⟩

theorem shl_writesReg (in_range : (s.readSource src).toNat ≤ 15) :
    ∃ v : Word, v.toNat = (s.readReg ra).toNat * 2 ^ (s.readSource src).toNat % 65536 ∧
      WritesReg s (shift (fun v n => v <<< n) ra src len s) ra len v :=
  ⟨_, by rw [BitVec.toNat_shiftLeft, Nat.shiftLeft_eq], shift_writesReg ra len _ in_range⟩

theorem shift_stopsWith (op : Word → Nat → Word)
    (out_of_range : (s.readSource src).toInt < 0 ∨ 15 < (s.readSource src).toInt) :
    StopsWith s (shift op ra src len s) 6#3 (s.readSource src) := by
  rw [shift_out_of_range ((shift_check _).1 out_of_range)]
  exact stopsWith_raise s (.shiftAmountOutOfRange (s.readSource src) s.pc)

end Shifts

/-- Settles O12: each form is `shift` with its operation at its own source and length. -/
theorem shiftsInRangeAreLogical : Obligations.ShiftsInRangeAreLogical := fun _ ra =>
  ⟨fun rb => shr_writesReg (src := .reg rb) ra 2, fun imm => shr_writesReg (src := .imm imm) ra 4,
    fun rb => shl_writesReg (src := .reg rb) ra 2, fun imm => shl_writesReg (src := .imm imm) ra 4⟩

/-- Settles O13: the range check stands before the shift, whatever its operation. -/
theorem shiftsOutOfRangeFaultAndAreNotMasked : Obligations.ShiftsOutOfRangeFaultAndAreNotMasked :=
  fun _ ra =>
  ⟨fun rb h => ⟨shift_stopsWith (src := .reg rb) ra 2 _ h, shift_stopsWith (src := .reg rb) ra 2 _ h⟩,
    fun imm h =>
      ⟨shift_stopsWith (src := .imm imm) ra 4 _ h, shift_stopsWith (src := .imm imm) ra 4 _ h⟩⟩

/-! ## The compare (R130) -/

theorem compareOperands_compares (s : State) (ra : Reg) (src : Source) (len : Nat) :
    Compares s (compareOperands ra src len s) len (s.readReg ra) (s.readSource src) :=
  ⟨_, compareOperands_eq ra src len s, compareSigned_lessThan _ _, compareSigned_equal _ _,
    compareSigned_greaterThan _ _, compareSigned_ne_none _ _, rfl, State.readReg_of_regs_eq rfl,
    State.readCell_of_mem_eq rfl, ⟨rfl, rfl, rfl, rfl, rfl⟩, rfl⟩

/-- Settles O14: each form is `compareOperands` at its own source and length. -/
theorem compareRecordsTheSignedOrder : Obligations.CompareRecordsTheSignedOrder := fun s ra =>
  ⟨fun rb => compareOperands_compares s ra (.reg rb) 2,
    fun imm => compareOperands_compares s ra (.imm imm) 4,
    fun addr => compareOperands_compares s ra (.cell addr) 4⟩

end Sys2Proof.Proofs
end

section
/-! The transfers and the system instructions: branches before the first compare, `bc` and `jmp`, calls and
returns one by one and nested, `halt` and the reserved opcodes (spec/44_compare_branch.md R134, R141 and
R142, spec/45_call_return.md R150 to R154, spec/46_system.md R160 to R162). -/

namespace Sys2Proof.Proofs

open Sys2Proof.Machine Sys2Proof.Safety

/-! ## Branches and the jump (R134, R141, R142) -/

/-- A branch whose comparison states do not hold the present one goes past itself. -/
theorem branchOn_not_taken {s : State} {states : List CmpState} (not_mem : s.cmp ∉ states)
    (target : Word) :
    GoesTo s (branchIf (states.contains s.cmp) target s) (s.pc + 3#17) := by
  have goes := branchOn_goesTo s states target (condition := False) (iff_false_intro not_mem)
  rwa [if_neg not_false] at goes

/-- Settles O16: `None` is in the set of no branch. -/
theorem noBranchIsTakenBeforeTheFirstCompare : Obligations.NoBranchIsTakenBeforeTheFirstCompare := by
  intro s target i uncompared hi
  have unread {states : List CmpState} (h : CmpState.none ∉ states) : s.cmp ∉ states := uncompared ▸ h
  simp only [List.mem_cons, List.not_mem_nil, or_false] at hi
  obtain rfl | rfl | rfl | rfl | rfl | rfl := hi
  · exact branchOn_not_taken (unread (states := takenOnEqual) (by decide)) target
  · exact branchOn_not_taken (unread (states := takenOnNotEqual) (by decide)) target
  · exact branchOn_not_taken (unread (states := takenOnGreater) (by decide)) target
  · exact branchOn_not_taken (unread (states := takenOnGreaterOrEqual) (by decide)) target
  · exact branchOn_not_taken (unread (states := takenOnLess) (by decide)) target
  · exact branchOn_not_taken (unread (states := takenOnLessOrEqual) (by decide)) target

/-- A running machine that went to a target outside its image faults at the next step (R16, R71). -/
theorem stopsWith_after_jump {s : State} {target : Word} (running : s.status = .running)
    (image_le : s.code.length ≤ 65536) (outside : s.code.length ≤ target.toNat) :
    StopsWith (s.jump target) (step (s.jump target)) 5#3 0#16 :=
  stopsWith_of_pc_outside running image_le (outside.trans (toNat_zero_extended target).ge)

/-- Settles O17: `bc` is the branch on `carry`, `jmp` the unchecked transfer. -/
theorem branchOnCarryAndJumpGoToTheirTarget : Obligations.BranchOnCarryAndJumpGoToTheirTarget := by
  refine ⟨fun lo hi rest => ⟨decode_target rfl lo hi rest, decode_target rfl lo hi rest⟩,
    fun s target => ⟨branchIf_goesTo s s.carry target, goesTo_jump s target⟩, ?_⟩
  intro s t target running outside image_le h
  obtain rfl : s.jump target = t := Host.Outcome.next.inj h
  exact stopsWith_after_jump running image_le outside

/-! ## Call and return (R150 to R152) -/

/-- The state that a call with room leaves. -/
def called (s : State) (target : Word) : State :=
  ({ s with frames := ⟨s.regs, s.nextPc 3⟩ :: s.frames } : State).jump target

theorem exec_call_eq {s : State} (target : Word) (room : s.depth < 1000) :
    exec (.call target) s = .next (called s target) := execCall_room target room

theorem exec_ret_eq {s : State} {f : Frame} {rest : List Frame} (frames : s.frames = f :: rest) :
    exec .ret s = .next { s with frames := rest, regs := f.regs, pc := f.ret } := execRet_cons frames

/-- Settles O18: the frame pushed on a stack with room, the fault of a full one, and the fetch after a
target outside the image. -/
theorem callPushesAFrameAndGoesToItsTarget : Obligations.CallPushesAFrameAndGoesToItsTarget := by
  refine ⟨decode_target rfl, ?pushes, ?no_wrap, callOnAFullStackFaults, ?outside⟩
  case pushes =>
    intro s target room
    exact ⟨called s target, ⟨s.regs, s.nextPc 3⟩, exec_call_eq target room, rfl, rfl, rfl, rfl, rfl,
      State.readReg_of_regs_eq rfl, State.readCell_of_mem_eq rfl, ⟨rfl, rfl⟩, rfl, rfl, rfl, rfl⟩
  case no_wrap =>
    intro s below
    exact toNat_pc_add (n := 3) (Nat.add_le_add_right below 3)
  case outside =>
    intro s target room running outside image_le
    exact ⟨called s target, exec_call_eq target room, rfl,
      stopsWith_after_jump (s := { s with frames := ⟨s.regs, s.nextPc 3⟩ :: s.frames }) running
        image_le outside⟩

/-- Settles O20: the top frame is popped and restored, and an empty stack is the fault commit alone. -/
theorem returnRestoresTheMostRecentFrame : Obligations.ReturnRestoresTheMostRecentFrame := by
  refine ⟨fun rest => decode_n rest rfl, ?_, returnOnAnEmptyStackFaults⟩
  intro s f below frames
  have depth : below.length + 1 = s.depth := (congrArg List.length frames).symm
  exact ⟨_, exec_ret_eq frames, rfl, rfl, rfl, depth, State.readCell_of_mem_eq rfl, ⟨rfl, rfl⟩, rfl,
    rfl, rfl, rfl⟩

/-- Settles O22: the frame on top is the one that the call pushed. -/
theorem returnUndoesTheCallWhateverCameBetween :
    Obligations.ReturnUndoesTheCallWhateverCameBetween := by
  intro s t u target room hcall same
  obtain rfl : called s target = t :=
    Host.Outcome.next.inj ((exec_call_eq target room).symm.trans hcall)
  exact exec_ret_eq same

/-! ## Nested calls (R154) -/

theorem execAll_cons_of_next {i : Instr} {s t : State} (rest : List Instr) (h : exec i s = .next t) :
    execAll (i :: rest) s = execAll rest t := by
  simp only [execAll, h]

theorem execAll_append_of_next {first : List Instr} {s t : State} (second : List Instr)
    (h : execAll first s = .next t) : execAll (first ++ second) s = execAll second t := by
  induction first generalizing s with
  | nil =>
    obtain rfl := Host.Outcome.next.inj h
    rfl
  | cons i rest ih =>
    obtain ⟨u, hu⟩ := exec_answers i s
    rw [execAll_cons_of_next rest hu] at h
    rw [List.cons_append, execAll_cons_of_next _ hu]
    exact ih h

/-- A call, instructions that leave its frames, and a return. -/
theorem execAll_call_ret {s u : State} {target : Word} {body : List Instr} (room : s.depth < 1000)
    (hbody : execAll body (called s target) = .next u)
    (same : u.frames = (called s target).frames) :
    execAll (.call target :: (body ++ [.ret])) s =
      .next { u with regs := s.regs, pc := s.pc + 3#17, frames := s.frames } := by
  have hcall := exec_call_eq target room
  have hret := returnUndoesTheCallWhateverCameBetween s _ u target room hcall same
  calc execAll (.call target :: (body ++ [.ret])) s
      = execAll (body ++ [.ret]) (called s target) := execAll_cons_of_next _ hcall
    _ = execAll [.ret] u := execAll_append_of_next _ hbody
    _ = _ := execAll_cons_of_next [] hret

/-- A call to each target, then as many returns. -/
def nestedCalls (targets : List Word) : List Instr :=
  targets.map Instr.call ++ List.replicate targets.length .ret

theorem nestedCalls_cons (target : Word) (targets : List Word) :
    nestedCalls (target :: targets) = .call target :: (nestedCalls targets ++ [.ret]) := by
  simp [nestedCalls, List.replicate_succ']

/-- Nested calls and their returns change nothing but `pc`, which ends past the first call. -/
theorem execAll_nestedCalls (targets : List Word) {s : State}
    (room : s.depth + targets.length ≤ 1000) :
    ∃ p, execAll (nestedCalls targets) s = .next { s with pc := p } ∧
      (targets ≠ [] → p = s.pc + 3#17) := by
  induction targets generalizing s with
  | nil => exact ⟨s.pc, rfl, fun nonempty => absurd rfl nonempty⟩
  | cons target targets ih =>
    rw [List.length_cons] at room
    have room_inside : (called s target).depth + targets.length ≤ 1000 := by
      have depth : (called s target).depth = s.depth + 1 := rfl
      omega
    obtain ⟨p, hbody, -⟩ := ih room_inside
    refine ⟨s.pc + 3#17, ?_, fun _ => rfl⟩
    rw [nestedCalls_cons, execAll_call_ret (by omega) hbody rfl]
    rfl

/-- Settles O23, by induction on the targets: each return undoes its own call. -/
theorem nestedCallsThenReturnsRestoreTheMachine :
    Obligations.NestedCallsThenReturnsRestoreTheMachine := by
  intro targets s nonempty room
  obtain ⟨p, hrun, hp⟩ := execAll_nestedCalls targets room
  rw [← hp nonempty]
  exact hrun

/-! ## System instructions (R160 to R162) -/

/-- Settles O24: `halt` advances past its byte and writes the status. -/
theorem haltStopsTheMachinePastItself : Obligations.HaltStopsTheMachinePastItself := fun s =>
  ⟨{ s.advance 1 with status := .halted }, rfl, rfl, rfl, State.readReg_of_regs_eq rfl,
    State.readCell_of_mem_eq rfl, ⟨rfl, rfl⟩, rfl, rfl, rfl, rfl⟩

/-- Settles O25: the layout of a reserved opcode reads no operand, and its meaning is the fault commit
alone. -/
theorem reservedOpcodesDecodeAndFault : Obligations.ReservedOpcodesDecodeAndFault :=
  ⟨fun rest => ⟨decode_reserved rest rfl, decode_reserved rest rfl⟩, fun s =>
    ⟨stopsWith_raise s (.unspecifiedInstruction 0x2D#8 s.pc),
      stopsWith_raise s (.unspecifiedInstruction 0x2E#8 s.pc)⟩⟩

end Sys2Proof.Proofs
end
